-- ==== Sys2Proof/Word.lean ====
section
/-! DEFINITION. The word and byte types of the unit (00_scope.md R7, R9, R10). -/

namespace Sys2Proof

/-- A register value. As a `u32` it is read with `toNat`, as an `s32` with `toInt`; `+`, `-` and negation wrap
modulo 2^32 (R10, R12). -/
abbrev Word := BitVec 32

/-- One byte lane of the bus word (R55). -/
abbrev Byte := BitVec 8

end Sys2Proof
end

