-- ==== Sys2Proof/Syntax.lean ====
section
/-! DEFINITION. The command set: one constructor per row of spec/opcode_table.json (30_encoding.md R71). -/

namespace Sys2Proof

/-- The four commands of command-set version 1. A command word has no register and no immediate field (R70): every
operand comes from ARG, copied into OPND at acceptance (R73), so the constructors carry no argument. -/
inductive Instr where
  /-- NOP, 41_control_ops.md R140. -/
  | nop
  /-- FSINCOS, 40_trig_ops.md R101. -/
  | fsincos
  /-- SIN64ROT, 40_trig_ops.md R110. -/
  | sin64rot
  /-- ROMRD, 40_trig_ops.md R120. -/
  | romrd
  deriving DecidableEq, Repr

end Sys2Proof
end

