-- ==== Sys2Proof/WellFormed.lean ====
section
/-! DEFINITION. Which command words select a command (30_encoding.md R70, R71, R75). An `Instr` has no field, so it is
always well formed; the checks are on the word. -/

namespace Sys2Proof

/-- The OP field is one of the assigned opcodes 0x0 to 0x3 (R71, R75 (a)). -/
def opAssigned (w : Word) : Bool := (w.extractLsb' 0 4).toNat < 4

/-- The RSVD field [31:4] is zero (R70, R75 (b)). -/
def rsvdZero (w : Word) : Bool := w.extractLsb' 4 28 == 0

/-- Both checks: the word selects a command. -/
def wellFormedWord (w : Word) : Bool := opAssigned w && rsvdZero w

/-- Every command is well formed: it has no operand field that could be out of range (R70). -/
def Instr.wellFormed : Instr → Bool
  | .nop => true
  | .fsincos => true
  | .sin64rot => true
  | .romrd => true

end Sys2Proof
end

