-- ==== Sys2Proof/Decode.lean ====
section
/-! DEFINITION. Decoding of command words (30_encoding.md R70 to R76), total on every word, and the encoder. -/

namespace Sys2Proof

/-- `w[3:0]`, the OP field (R70). -/
def opField (w : Word) : BitVec 4 := w.extractLsb' 0 4

/-- `w[31:4]`, the RSVD field (R70). -/
def rsvdField (w : Word) : BitVec 28 := w.extractLsb' 4 28

/-- What a command word decodes to (R72): a command, or one of the two rejections, each with the OP field it
carries (R160 records it in LASTOP). -/
inductive Decoded where
  | instr (i : Instr)
  /-- ILLEGAL_OP: an unassigned opcode (R75 (a)). -/
  | illegalOp (op : BitVec 4)
  /-- RESERVED_BITS: an assigned opcode with RSVD not zero (R75 (b)). -/
  | reservedBits (op : BitVec 4)
  deriving DecidableEq, Repr

/-- The command of an opcode; none for the unassigned 0x4 to 0xF (R71). -/
def instrOfOp (op : BitVec 4) : Option Instr :=
  if op = 0x0#4 then some .nop
  else if op = 0x1#4 then some .fsincos
  else if op = 0x2#4 then some .sin64rot
  else if op = 0x3#4 then some .romrd
  else none

/-- `decode` of R72: the unassigned-opcode check comes before the reserved-bit check. -/
def decodeWord (w : Word) : Decoded :=
  match instrOfOp (opField w) with
  | none => .illegalOp (opField w)
  | some i => if rsvdField w = 0 then .instr i else .reservedBits (opField w)

/-- The bus word whose byte lane `k` is `b<k>`: little-endian (20_memory.md R55). -/
def wordOfLanes (b0 b1 b2 b3 : Byte) : Word := b3 ++ b2 ++ b1 ++ b0

/-- Byte lane `k` of a bus word: register bits [8k+7:8k] (R55). -/
def byteLane (w : Word) (k : Fin 4) : Byte := w.extractLsb' (8 * k.val) 8

/-- A command read from its four byte lanes, lowest address first: every command is exactly one word (R76). -/
def decodeLanes (b0 b1 b2 b3 : Byte) : Decoded := decodeWord (wordOfLanes b0 b1 b2 b3)

/-- The opcode of a command (R71). -/
def opcodeOf : Instr → BitVec 4
  | .nop => 0x0#4
  | .fsincos => 0x1#4
  | .sin64rot => 0x2#4
  | .romrd => 0x3#4

/-- The command word of a command: the match column of R71. -/
def encode : Instr → Word
  | .nop => 0x00000000#32
  | .fsincos => 0x00000001#32
  | .sin64rot => 0x00000002#32
  | .romrd => 0x00000003#32

/-- The number of an `nbits`-wide table word, the bits above `nbits` zero. -/
def tableBits (nbits w : Nat) : Nat := w % 2 ^ nbits

/-- The command this decoder reads from a word of the opcode table: bit 0 is the least significant bit. A number that
does not fit one 32-bit word is no command (R76). -/
def decodeTableWord (nbits w : Nat) : Option Instr :=
  if tableBits nbits w < 2 ^ 32 then
    match decodeWord (BitVec.ofNat 32 (tableBits nbits w)) with
    | .instr i => some i
    | .illegalOp _ => none
    | .reservedBits _ => none
  else none

end Sys2Proof
end

