-- ==== Sys2Proof/Config.lean ====
section
/-! DEFINITION. The implementation parameters of 00_scope.md R7 that hold no table: widths, the step count and the
latencies, each at the default this hardware takes. The tables and constant words stand in Machine/Tables.lean.
BASE, which is OPEN, is a field of State that no step changes (log entry 2). The free values of the host's language stand last. -/

namespace Sys2Proof.Config

/-- `PHASE_W` (R7). -/
def phaseW : Nat := 32

/-- `OUT_W` (R7). -/
def outW : Nat := 32

/-- `N_ITER`, the number of rotation steps (R7, decision D10). -/
def nIter : Nat := 31

/-- `LAT_FSINCOS`, cycles from acceptance to completion (R7, R210); no rule depends on it. -/
def latFsincos : Nat := 33

/-- `LAT_LUT`, the same for NOP, SIN64ROT and ROMRD (R7, R210); no rule depends on it. -/
def latLut : Nat := 1

/-- The size of the register window in bytes; `BASE` is a multiple of it (R50). -/
def windowBytes : Nat := 32

/-! The free values of the host's language: values that 30_encoding.md R77 does not state. Nothing constrains them. The first
argument is `State.draws`, which differs from one evaluating host step to the next (log entry 16). -/

/-- The value of a host variable that nothing has set, or that a read without data left without a value. DESIGN CHOICE
(log entry 16), safe. -/
opaque unboundVar : Nat → Nat → Int

/-- The value of `m << k` for a negative `k`. DESIGN CHOICE (log entry 16), safe. -/
opaque negativeShl : Nat → Int → Int → Int

/-- The value of `m >> k` for a negative `k`. DESIGN CHOICE (log entry 16), safe. -/
opaque negativeShr : Nat → Int → Int → Int

end Sys2Proof.Config
end

