-- ==== Sys2Proof/Machine/Tables.lean ====
section
/-! DEFINITION. The constant tables and words of the unit (10_state.md R22, R30 to R33). None is writable by any access
(R30). The spec marks the values of ATAN_ROM, CORDIC_GAIN and QTR "from general knowledge" and those of SIN64_ROM its own
choice (log entry 10). -/

namespace Sys2Proof.Machine

/-- ID: "CRD" and command-set version 1 (R22). -/
def idWord : Word := 0x43524401#32

/-- ATAN_ROM[0..30]: atan(2^-i) in phase units (R31). -/
def atanRom : Vector Word 31 :=
  #v[0x1FFFFFFF, 0x12E4051D, 0x09FB385B, 0x051111D4, 0x028B0D43, 0x0145D7E1, 0x00A2F61E, 0x00517C55,
     0x0028BE53, 0x00145F2E, 0x000A2F98, 0x000517CC, 0x00028BE6, 0x000145F3, 0x0000A2F9, 0x0000517C,
     0x000028BE, 0x0000145F, 0x00000A2F, 0x00000517, 0x0000028B, 0x00000145, 0x000000A2, 0x00000051,
     0x00000028, 0x00000014, 0x0000000A, 0x00000005, 0x00000002, 0x00000001, 0x00000000]

/-- SIN64_ROM[0..32]: sin(i pi / 64) in Q1.31 (R32). -/
def sin64Rom : Vector Word 33 :=
  #v[0x00000000, 0x0647D97C, 0x0C8BD35E, 0x12C8106F, 0x18F8B83C, 0x1F19F97B, 0x25280C5E, 0x2B1F34EB,
     0x30FBC54D, 0x36BA2014, 0x3C56BA70, 0x41CE1E65, 0x471CECE7, 0x4C3FDFF4, 0x5133CC94, 0x55F5A4D2,
     0x5A82799A, 0x5ED77C8A, 0x62F201AC, 0x66CF8120, 0x6A6D98A4, 0x6DCA0D14, 0x70E2CBC6, 0x73B5EBD1,
     0x7641AF3D, 0x78848414, 0x7A7D055B, 0x7C29FBEE, 0x7D8A5F40, 0x7E9D55FC, 0x7F62368F, 0x7FD8878E,
     0x7FFFFFFF]

/-- CORDIC_GAIN = s32(0xB2458939) = -1304065735 (R33). -/
def cordicGain : Word := 0xB2458939#32

/-- QTR = 0xFFFFFFFF div 4 (R33). -/
def qtr : Word := 0x3FFFFFFF#32

/-- 3 * QTR = 0xBFFFFFFD (R33). -/
def qtr3 : Word := 0xBFFFFFFD#32

/-- `rom(SEL, IDX)`: the word ROMRD reads, none outside the selected table (R120). -/
def romWord (sel : Bool) (idx : BitVec 6) : Option Word :=
  if sel then atanRom[idx.toNat]? else sin64Rom[idx.toNat]?

end Sys2Proof.Machine
end

