-- ==== Sys2Proof/Machine/Cordic.lean ====
section
/-! DEFINITION. The two numeric functions: `cordic` (40_trig_ops.md R102, R103) and `fold` (R111). Arithmetic on x and y is
s32 and wraps (R12); z is u32. -/

namespace Sys2Proof.Machine

/-- The CORDIC vector (x, y) and the angle accumulator z (R34 CX, CY, CZ). -/
structure Vec where
  x : Word
  y : Word
  z : Word
  deriving DecidableEq, Repr

/-- Quadrant normalisation (R102). -/
def normalise (phase : Word) : Vec :=
  if phase < qtr then { x := -cordicGain, y := 0, z := phase + qtr }
  else if phase < qtr3 then { x := cordicGain, y := 0, z := phase - qtr }
  else { x := -cordicGain, y := 0, z := phase - qtr3 }

/-- One rotation by +-atan(2^-i), `z1` being ATAN_ROM[i]: both shifts are arithmetic and read x and y as they were before
the step; z = QTR takes the first branch (R103). -/
def rotateBy (i : Nat) (z1 : Word) (v : Vec) : Vec :=
  if qtr ≤ v.z then
    { x := v.x - v.y.sshiftRight i, y := v.y + v.x.sshiftRight i, z := v.z - z1 }
  else
    { x := v.x + v.y.sshiftRight i, y := v.y - v.x.sshiftRight i, z := v.z + z1 }

/-- Rotation step `i`. The table has N_ITER = 31 entries: past the last one there is no step. -/
def rotateStep (i : Nat) (v : Vec) : Vec :=
  match atanRom[i]? with
  | some z1 => rotateBy i z1 v
  | none => v

/-- Rotation steps 0, 1, ..., n-1 in order (R103's loop). -/
def rotations : Nat → Vec → Vec
  | 0, v => v
  | n + 1, v => rotateStep n (rotations n v)

/-- The vector after all N_ITER steps. Irreducible to the elaborator, so that a proof about a command does not run the 31
steps; `unfold cordicVec` and the kernel still compute it. -/
@[irreducible] def cordicVec (phase : Word) : Vec := rotations Config.nIter (normalise phase)

/-- `cordic(PHASE) = (s = y, c = x)` (R103). Its results keep the accuracy guarantee of R106 for every phase: `meetsAccuracy`,
proved as `cordic_meetsAccuracy`. -/
def cordic (phase : Word) : Word × Word := ((cordicVec phase).y, (cordicVec phase).x)

/-- `fold(N)`: sine and cosine of N pi / 64 from the quarter-period table (R111). -/
def fold (n : BitVec 6) : Word × Word :=
  if h : n.toNat < 32 then
    (sin64Rom[n.toNat], sin64Rom[32 - n.toNat])
  else
    (sin64Rom[64 - n.toNat], -sin64Rom[n.toNat - 32])

end Sys2Proof.Machine
end

