-- ==== Sys2Proof/Machine/HostSyntax.lean ====
section
/-! DEFINITION. The host agent's programs (00_scope.md R14 (1), 30_encoding.md R77): bus reads and writes, waits, and
host-side computation on host variables. -/

namespace Sys2Proof.Machine

/-- The eight register slots of the window (10_state.md R20), under the names that host programs use (R77). -/
inductive Reg where
  | id
  | ctrl
  | status
  | arg
  | cmd
  | sin
  | cos
  | rsv1c
  deriving DecidableEq, Repr

/-- A host variable; the spec's variable names are numbered. -/
abbrev HostVar := Nat

/-- Host-side expressions on integers (R77: `+`, `-`, `AND`, `OR`, `<<`, `>>`, `s32()`), with numerals and, as in a CMD
write, a command's mnemonic standing for its match value. `mul` is a DESIGN CHOICE (log entry 17): R77 does not list `*`, and
program P2 of 95_test_vectors.md uses it. -/
inductive HostExpr where
  | lit (n : Int)
  | var (x : HostVar)
  | mnemonic (i : Instr)
  | add (a b : HostExpr)
  | sub (a b : HostExpr)
  | mul (a b : HostExpr)
  | and (a b : HostExpr)
  | or (a b : HostExpr)
  | shl (a b : HostExpr)
  | shr (a b : HostExpr)
  | s32 (a : HostExpr)
  deriving DecidableEq, Repr

/-- Host-side conditions (R77 `IF`). The spec gives no grammar of `<cond>`: comparisons, negation and conjunction.
DESIGN CHOICE (log entry 6), safe. -/
inductive HostCond where
  | lt (a b : HostExpr)
  | ge (a b : HostExpr)
  | eq (a b : HostExpr)
  | not (c : HostCond)
  | and (c d : HostCond)
  deriving DecidableEq, Repr

/-- Where a bus access goes: a register by name (`BASE + off(reg)`, 4 bytes, R77) or any address and size in bytes
(`MemRead` and `MemWrite` of R11, and the sub-word accesses of R54). -/
inductive Target where
  | reg (r : Reg)
  | raw (addr size : Nat)
  deriving DecidableEq, Repr

/-- A host program: what the host has still to do, in program order. The last argument `k` is the rest. -/
inductive HostProg where
  | done
  /-- `WR`: one bus write. -/
  | write (t : Target) (e : HostExpr) (k : HostProg)
  /-- `RD`: one bus read into a host variable. -/
  | read (t : Target) (x : HostVar) (k : HostProg)
  /-- `WAIT`: read STATUS until DONE = 1. No variable keeps the STATUS read: DESIGN CHOICE (log entry 18). -/
  | wait (k : HostProg)
  /-- Wait until `irq` = 1 (R61 (b)); no bus transaction. -/
  | waitIrq (k : HostProg)
  /-- `LET`: host-side computation; no bus transaction. -/
  | assign (x : HostVar) (e : HostExpr) (k : HostProg)
  /-- `FOR x IN a..b`: the body once for each value, in order; when `a` is above `b`, not at all. R77 does not say whether a
  bound is a numeral or an expression: it is an expression, evaluated once, on entry. DESIGN CHOICE (log entry 19). -/
  | loop (x : HostVar) (a b : HostExpr) (body k : HostProg)
  /-- `IF`: the body when the condition holds. -/
  | cond (c : HostCond) (body k : HostProg)
  deriving DecidableEq, Repr

end Sys2Proof.Machine
end

