-- ==== Sys2Proof/Machine/State.lean ====
section
/-! DEFINITION. The machine's state as plain data (10_state.md R20 to R36), its faults and refusals, and the state after
reset. -/

namespace Sys2Proof.Machine

/-- The engine's sequencing state (R34). STATUS.BUSY is a view of it: BUSY = 1 exactly when it is `run`. -/
inductive EState where
  | idle
  | run
  deriving DecidableEq, Repr

/-- The four sticky error flags of STATUS (R24, R160). -/
inductive ErrFlag where
  | illop
  | rsvd
  | ovr
  | range
  deriving DecidableEq, Repr

/-- Who moves at a step (R14, R60). The list `State.turns` of these is the interleaving of the two agents and of the reset
pin; claims quantify over it. DESIGN CHOICE (log entry 1), safe. -/
inductive Turn where
  /-- The host does the next thing of its program. -/
  | host
  /-- The engine's completion step (R166), enabled at every step while ESTATE = RUN. -/
  | engine
  /-- One clock cycle of the engine (R166 "in a cycle model", R210): REMAIN counts down, and the command completes when it
  reaches 0. -/
  | clock
  /-- `rst_n` is sampled: asserted (low) or released (R190). -/
  | rst (asserted : Bool)
  deriving DecidableEq, Repr

/-- The unit itself: its registers and the engine's hidden state. ID, CMD, CTRL.SRST, RSV1C and the tables are constants or
have no storage (R22, R23, R26, R29, R30); BUSY and `irq` are views (R34, R167). -/
structure Device where
  /-- CTRL.IE (R23). -/
  ie : Bool
  /-- STATUS.DONE (R24, R165). -/
  done : Bool
  /-- STATUS.ERR_ILLOP (R24, R160). -/
  errIllop : Bool
  /-- STATUS.ERR_RSVD (R24, R160). -/
  errRsvd : Bool
  /-- STATUS.ERR_OVR (R24, R160). -/
  errOvr : Bool
  /-- STATUS.ERR_RANGE (R24, R160). -/
  errRange : Bool
  /-- STATUS.LASTOP (R24). -/
  lastop : BitVec 4
  /-- ARG (R25). -/
  arg : Word
  /-- SIN (R27). -/
  sin : Word
  /-- COS (R28). -/
  cos : Word
  /-- ESTATE (R34). -/
  estate : EState
  /-- OPLATCH (R34). -/
  oplatch : BitVec 4
  /-- OPND (R34). -/
  opnd : Word
  /-- CX (R34). -/
  cx : Word
  /-- CY (R34). -/
  cy : Word
  /-- CZ (R34). -/
  cz : Word
  /-- CI, 0..31 (R34). -/
  ci : Fin 32
  /-- REMAIN, the cycles left before completion (R34). -/
  remain : Nat
  deriving DecidableEq, Repr

/-- R36: every register 0, ESTATE idle. -/
def Device.reset : Device where
  ie := false
  done := false
  errIllop := false
  errRsvd := false
  errOvr := false
  errRange := false
  lastop := 0
  arg := 0
  sin := 0
  cos := 0
  estate := .idle
  oplatch := 0
  opnd := 0
  cx := 0
  cy := 0
  cz := 0
  ci := 0
  remain := 0

/-- The whole machine: the unit, its pins, the platform parameter BASE, the host agent and the interleaving. -/
structure State where
  /-- The unit. -/
  dev : Device
  /-- The level of the reset input `rst_n`: true is released (R190). -/
  rstN : Bool
  /-- The read data the last bus access returned, none if it returned none (R52, R54). -/
  rdata : Option Word
  /-- BASE / 32: BASE is a multiple of 32 (R50). No step changes it. -/
  window : Nat
  /-- What the host has still to do (R14, R77). -/
  prog : HostProg
  /-- The host's variables, sorted by variable, each at most once (R77). -/
  vars : List (HostVar × Int)
  /-- The model's own counter of the host steps that evaluated something; it picks the free values of the host's language
  (`Config.unboundVar` and the others). DESIGN CHOICE (log entry 16). -/
  draws : Nat
  /-- Who moves at the coming steps (R60); when empty, see `State.mover`. -/
  turns : List Turn
  deriving DecidableEq, Repr

/-- Why the machine stops with a fault. -/
inductive Fault where
  /-- BusError (R54, R170): raised by `busAccess` for an access inside the window that `admit` rejects. The faulted state is
  final; the unit's state is unchanged. Safe: nothing can be proved of a run past it. -/
  | busError (addr : Nat)
  deriving DecidableEq, Repr

/-- Why a step has no meaning. -/
inductive Refusal where
  /-- An instruction with no meaning yet. Raised by `exec` for such an arm; safe. -/
  | notModelled (mnemonic : String)
  /-- The engine is to complete a command that acceptance never latches (OPLATCH unassigned, or a ROMRD index out of range in
  OPND). Raised by `finishCommand` and `engineStep`; no run reaches it (log entry 9). Safe. -/
  | latchNeverAccepted
  /-- The host is to move, or makes a bus access, while `rst_n` is asserted: the unit ignores the access (R190), and what the
  host sees is the platform's (93_implementation_defined.md: "`refuse`: the model has no host step during reset"). Raised by
  `hostStep` and `busAccess` (log entry 5). Safe. -/
  | hostStepInReset
  deriving DecidableEq, Repr

/-- What a step answers on this machine. -/
abbrev Result := Host.Outcome State Fault Refusal

/-- The machine right after reset (R36, R192): the unit at its reset values and IDLE, `rst_n` released, nothing read, and a
host that has nothing to do. BASE 0 is a DESIGN CHOICE (log entry 2), unsafe; no statement rests on it. -/
def State.reset : State where
  dev := Device.reset
  rstN := true
  rdata := none
  window := 0
  prog := .done
  vars := []
  draws := 0
  turns := []

end Sys2Proof.Machine
end

