-- ==== Sys2Proof/Machine/Flags.lean ====
section
/-! DEFINITION. STATUS, CTRL and `irq`: the flags' views, setting an error flag and the write-one-to-clear rule
(10_state.md R23, R24; 41_control_ops.md R142, R146; 60_exceptions.md R160, R167). -/

namespace Sys2Proof.Machine

/-- STATUS.BUSY mirrors ESTATE (R34). -/
def Device.busy (d : Device) : Bool := d.estate == .run

/-- `irq = CTRL.IE AND STATUS.DONE`, a level (R167). -/
def Device.irq (d : Device) : Bool := d.ie && d.done

/-- The value of STATUS (R146):
{20'b0, LASTOP[3:0], 2'b0, ERR_RANGE, ERR_OVR, ERR_RSVD, ERR_ILLOP, DONE, BUSY}. -/
def Device.statusWord (d : Device) : Word :=
  0#20 ++ d.lastop ++ 0#2 ++ BitVec.ofBool d.errRange ++ BitVec.ofBool d.errOvr ++ BitVec.ofBool d.errRsvd
    ++ BitVec.ofBool d.errIllop ++ BitVec.ofBool d.done ++ BitVec.ofBool d.busy

/-- The value of CTRL: bit 0 is IE, every other bit 0; SRST reads 0 (R23, R146). -/
def Device.ctrlWord (d : Device) : Word := (BitVec.ofBool d.ie).setWidth 32

/-- `set_err(f)`: sets one sticky bit and clears none (R160). -/
def Device.setErr (f : ErrFlag) (d : Device) : Device :=
  match f with
  | .illop => { d with errIllop := true }
  | .rsvd => { d with errRsvd := true }
  | .ovr => { d with errOvr := true }
  | .range => { d with errRange := true }

/-- Whether an error flag is set. -/
def Device.err (f : ErrFlag) (d : Device) : Bool :=
  match f with
  | .illop => d.errIllop
  | .rsvd => d.errRsvd
  | .ovr => d.errOvr
  | .range => d.errRange

/-- The place of an error flag in STATUS (R24, R160). -/
def ErrFlag.bit : ErrFlag → Nat
  | .illop => 2
  | .rsvd => 3
  | .ovr => 4
  | .range => 5

/-- A STATUS write clears each W1C bit written with 1; BUSY, LASTOP and the reserved bits ignore it (R142). -/
def Device.clearW1C (v : Word) (d : Device) : Device :=
  { d with
    done := d.done && !v.getLsbD 1
    errIllop := d.errIllop && !v.getLsbD 2
    errRsvd := d.errRsvd && !v.getLsbD 3
    errOvr := d.errOvr && !v.getLsbD 4
    errRange := d.errRange && !v.getLsbD 5 }

end Sys2Proof.Machine
end

