-- ==== Sys2Proof/Machine/Operands.lean ====
section
/-! DEFINITION. The operand fields each command reads from OPND (30_encoding.md R73, R74) and the range test of ROMRD
(60_exceptions.md R162). -/

namespace Sys2Proof.Machine

/-- PHASE = OPND[31:0], a u32 (R73). -/
def phaseOf (opnd : Word) : Word := opnd

/-- N = OPND[5:0], the angle index of SIN64ROT; the other bits are ignored (R73). -/
def angleIndexOf (opnd : Word) : BitVec 6 := opnd.extractLsb' 0 6

/-- IDX = OPND[5:0], the table index of ROMRD; OPND[7:6] and OPND[31:9] are ignored (R73). -/
def romIdxOf (opnd : Word) : BitVec 6 := opnd.extractLsb' 0 6

/-- SEL = OPND[8], the table select of ROMRD: 0 is SIN64_ROM, 1 is ATAN_ROM (R73, R74). -/
def romSelOf (opnd : Word) : Bool := opnd.getLsbD 8

/-- `in_range(a)` of R162: the index lies in the selected table. -/
def romInRange (a : Word) : Bool :=
  if romSelOf a then (romIdxOf a).toNat ≤ 30 else (romIdxOf a).toNat ≤ 32

end Sys2Proof.Machine
end

