-- ==== Sys2Proof/Machine/Ops.lean ====
section
/-! DEFINITION. The operations the meanings share: who moves, reading a register, acceptance, rejection and drop of a
command, completion, one clock cycle, and the resets (41_control_ops.md R146; 60_exceptions.md R160 to R166;
70_reset_and_hazards.md R190, R191). The unit takes no trap (R169): recording an error (`Device.reject`, `Device.drop`) stands
in the place of exception entry. -/

namespace Sys2Proof.Machine

/-- The unit changed by `f`, everything else as it was. -/
def State.mapDev (f : Device → Device) (s : State) : State := { s with dev := f s.dev }

/-- `f` after a next state; a fault or a refusal as it is. -/
def onNext (f : State → State) : Result → Result
  | .next s => .next (f s)
  | .fault r => .fault r
  | .refused r => .refused r

/-- Who moves now: the head of the interleaving. When it is used up the engine completes what runs, and otherwise the host
goes on; while `rst_n` is asserted the turn is then the engine's, which does nothing, since there is no host step in reset
(log entries 1, 5). DESIGN CHOICE, safe for statements about every `turns`. -/
def State.mover (s : State) : Turn :=
  match s.turns with
  | t :: _ => t
  | [] => if s.rstN = true ∧ s.dev.estate = .idle then .host else .engine

/-- The turn is used up. -/
def State.popTurn (s : State) : State := { s with turns := s.turns.tail }

/-- BASE, a multiple of 32 (R50). -/
def State.base (s : State) : Nat := Config.windowBytes * s.window

/-- `off(reg)`: the byte offset of a slot (R20). -/
def Reg.offset : Reg → Nat
  | .id => 0x00
  | .ctrl => 0x04
  | .status => 0x08
  | .arg => 0x0C
  | .cmd => 0x10
  | .sin => 0x14
  | .cos => 0x18
  | .rsv1c => 0x1C

/-- The slot an address selects: the unit decodes only address bits [4:2] (R50). -/
def regAt (addr : Nat) : Reg :=
  match addr / 4 % 8 with
  | 0 => .id
  | 1 => .ctrl
  | 2 => .status
  | 3 => .arg
  | 4 => .cmd
  | 5 => .sin
  | 6 => .cos
  | _ => .rsv1c

/-- What a read of a slot returns (R146). -/
def Device.readReg (r : Reg) (d : Device) : Word :=
  match r with
  | .id => idWord
  | .ctrl => d.ctrlWord
  | .status => d.statusWord
  | .arg => d.arg
  | .cmd => 0
  | .sin => d.sin
  | .cos => d.cos
  | .rsv1c => 0

/-- The cycles from acceptance to completion (R162, R210). -/
def latencyOf (op : BitVec 4) : Nat :=
  if op = opcodeOf .fsincos then Config.latFsincos else Config.latLut

/-- Acceptance of a command (R162): the operand and the opcode are latched, BUSY is set and DONE cleared. -/
def Device.accept (op : BitVec 4) (d : Device) : Device :=
  { d with
    oplatch := op
    opnd := d.arg
    lastop := op
    done := false
    estate := .run
    remain := latencyOf op }

/-- `reject(op, f)`: the error and DONE are set and the opcode recorded; nothing runs (R164). -/
def Device.reject (op : BitVec 4) (f : ErrFlag) (d : Device) : Device :=
  { d.setErr f with lastop := op, done := true }

/-- A dropped command: only ERR_OVR is set (R163). -/
def Device.drop (d : Device) : Device := d.setErr .ovr

/-- The acceptance logic on a command word with OP field `op`, `err` being the error decoding or the range test found (R162):
drop while RUN, else reject, else accept, in the priority of R161. -/
def Device.present (op : BitVec 4) (err : Option ErrFlag) (d : Device) : Device :=
  match d.estate with
  | .run => d.drop
  | .idle =>
    match err with
    | some f => d.reject op f
    | none => d.accept op

/-- The end of a command (R166): BUSY cleared, DONE set, and no cycle left. -/
def Device.endCommand (d : Device) : Device :=
  { d with estate := .idle, done := true, remain := 0 }

/-- SIN and COS are written together (R100, R166). -/
def Device.writeResults (s c : Word) (d : Device) : Device := { d with sin := s, cos := c }

/-- The engine's CORDIC vector as it stands (R34). -/
def Device.vec (d : Device) : Vec := { x := d.cx, y := d.cy, z := d.cz }

/-- The CORDIC vector and the iteration counter set (R34). -/
def Device.setVec (v : Vec) (i : Fin 32) (d : Device) : Device :=
  { d with cx := v.x, cy := v.y, cz := v.z, ci := i }

/-- Completion (R166), one atomic step: `result` writes what the command computes from OPND. It is enabled only while
ESTATE = RUN. No result means latches that acceptance never stores (log entry 9). -/
def finishCommand (result : Device → Option Device) (s : State) : Result :=
  match s.dev.estate with
  | .idle => .next s
  | .run =>
    match result s.dev with
    | some d => .next { s with dev := d.endCommand }
    | none => .refused .latchNeverAccepted

/-- One clock cycle of the engine (R166 "in a cycle model", R210): REMAIN counts down, and the command completes in the cycle
in which it reaches 0; before that the engine does its inner work `advance`. -/
def cycleCommand (result : Device → Option Device) (advance : Device → Device) (s : State) : Result :=
  match s.dev.estate with
  | .idle => .next s
  | .run =>
    if s.dev.remain ≤ 1 then finishCommand result s
    else .next (s.mapDev fun d => { advance d with remain := d.remain - 1 })

/-- A command's part of a step, by who moves: the host presents it at CMD (R162), the engine completes it (R166), or a clock
cycle passes (R210). In a cycle of the reset pin a command does nothing (R168 (c)). -/
def runCommand (op : BitVec 4) (err : Option ErrFlag) (result : Device → Option Device)
    (advance : Device → Device) (s : State) : Result :=
  match s.mover with
  | .host => .next (s.mapDev (Device.present op err))
  | .engine => finishCommand result s
  | .clock => cycleCommand result advance s
  | .rst _ => .next s

/-- `soft_reset()` (R191): every piece of the unit's state takes its value of R36. -/
def Device.softReset (_d : Device) : Device := Device.reset

/-- The reset pin sampled at a level (R190): while `rst_n` is asserted, and on its release, the unit takes the values of R36; a
sample that finds it released as before changes nothing. -/
def State.rstPin (asserted : Bool) (s : State) : State :=
  { s with rstN := !asserted, dev := if !asserted && s.rstN then s.dev else Device.reset }

/-- While `rst_n` is asserted the unit is held at its reset values (R190). -/
def State.holdReset (s : State) : State :=
  if s.rstN then s else { s with dev := Device.reset }

end Sys2Proof.Machine
end

