-- ==== Sys2Proof/Machine/Control.lean ====
section
/-! DEFINITION. NOP and the register writes without a command (41_control_ops.md R140 to R143, R145). -/

namespace Sys2Proof.Machine

/-- NOP (R140): nothing is computed; it completes and sets DONE. -/
def execNop (s : State) : Result :=
  runCommand (opcodeOf .nop) none some id s

/-- CTRL write (R141): bit 1 performs a soft reset, and bit 0 is then not kept; otherwise IE takes bit 0. -/
def Device.writeCtrl (v : Word) (d : Device) : Device :=
  if v.getLsbD 1 then d.softReset else { d with ie := v.getLsbD 0 }

/-- STATUS write (R142). -/
def Device.writeStatus (v : Word) (d : Device) : Device := d.clearW1C v

/-- ARG write (R143). -/
def Device.writeArg (v : Word) (d : Device) : Device := { d with arg := v }

end Sys2Proof.Machine
end

