-- ==== Sys2Proof/Machine/Trig.lean ====
section
/-! DEFINITION. FSINCOS, SIN64ROT and ROMRD (40_trig_ops.md R100 to R121). -/

namespace Sys2Proof.Machine

/-- What FSINCOS writes at completion: the last CORDIC vector, and SIN and COS from it (R101, R103). Both keep the
accuracy guarantee of R106 (`fsincosResult_meetsAccuracy`). -/
def fsincosResult (d : Device) : Device :=
  (d.setVec (cordicVec (phaseOf d.opnd)) 31).writeResults (cordic (phaseOf d.opnd)).1 (cordic (phaseOf d.opnd)).2

/-- One inner cycle of FSINCOS (R210): the first normalises, the following do one rotation each, CI counting 0..30. -/
def fsincosCycle (d : Device) : Device :=
  if d.remain = Config.latFsincos then d.setVec (normalise (phaseOf d.opnd)) 0
  else if d.ci.val < Config.nIter then d.setVec (rotateStep d.ci.val d.vec) (d.ci + 1)
  else d

/-- FSINCOS (R101): SIN and COS take the sine and the cosine of PHASE, as accurate as R106 promises. -/
def execFsincos (s : State) : Result :=
  runCommand (opcodeOf .fsincos) none (fun d => some (fsincosResult d)) fsincosCycle s

/-- What SIN64ROT writes at completion (R110). -/
def sin64rotResult (d : Device) : Device :=
  d.writeResults (fold (angleIndexOf d.opnd)).1 (fold (angleIndexOf d.opnd)).2

/-- SIN64ROT (R110): SIN and COS take the folded table entries of the angle index. -/
def execSin64rot (s : State) : Result :=
  runCommand (opcodeOf .sin64rot) none (fun d => some (sin64rotResult d)) id s

/-- What ROMRD writes at completion: the table word, and 0 to COS (R120). -/
def romrdResult (d : Device) : Option Device :=
  match romWord (romSelOf d.opnd) (romIdxOf d.opnd) with
  | some w => some (d.writeResults w 0)
  | none => none

/-- The error ROMRD is rejected with at acceptance: ERR_RANGE when ARG is out of range (R121, R162). -/
def romrdError (d : Device) : Option ErrFlag :=
  if romInRange d.arg then none else some .range

/-- ROMRD (R120, R121): SIN takes the table word and COS 0, or the command is rejected with ERR_RANGE. -/
def execRomrd (s : State) : Result :=
  runCommand (opcodeOf .romrd) (romrdError s.dev) romrdResult id s

end Sys2Proof.Machine
end

