-- ==== Sys2Proof/Machine/Dispatch.lean ====
section
/-! DEFINITION. The dispatch: one arm per command of spec/opcode_table.json. -/

namespace Sys2Proof.Machine

def exec (i : Instr) (s : State) : Host.Outcome State Fault Refusal :=
  match i with
  | .nop => Sys2Proof.Machine.execNop s
  | .fsincos => Sys2Proof.Machine.execFsincos s
  | .sin64rot => Sys2Proof.Machine.execSin64rot s
  | .romrd => Sys2Proof.Machine.execRomrd s

end Sys2Proof.Machine
end

