-- ==== Sys2Proof/Machine/Bus.lean ====
section
/-! DEFINITION. The unit's bus slave: which accesses it admits, the CMD write, register writes and reads
(20_memory.md R50 to R58; 41_control_ops.md R141 to R146; 60_exceptions.md R162). -/

namespace Sys2Proof.Machine

/-- A read, or a write with its data. -/
inductive AccessKind where
  | read
  | write (v : Word)
  deriving DecidableEq, Repr

/-- One bus access of the host: address, size in bytes and kind (R11, R53). The data of a sub-word write is held in a word;
such a write is never admitted. -/
structure Access where
  addr : Nat
  size : Nat
  kind : AccessKind
  deriving DecidableEq, Repr

/-- The access lies in the window, so the interconnect routes it to the unit (R50, R51). -/
def State.inWindow (s : State) (addr : Nat) : Bool :=
  s.base ≤ addr && addr ≤ s.base + 0x1F

/-- `admit(addr, size)` (R53). -/
def State.admits (s : State) (addr size : Nat) : Bool :=
  size == 4 && addr % 4 == 0 && (s.base ≤ addr && addr ≤ s.base + 0x1C)

/-- A CMD write of word `w` (R144, R162): the decoded command is presented, or the decoding error. -/
def presentWord (w : Word) (s : State) : Result :=
  match decodeWord w with
  | .instr i => exec i s
  | .illegalOp op => .next (s.mapDev (Device.present op (some .illop)))
  | .reservedBits op => .next (s.mapDev (Device.present op (some .rsvd)))

/-- A write of a slot (R141 to R145); writes to ID, SIN, COS and RSV1C are ignored. -/
def writeReg (r : Reg) (v : Word) (s : State) : Result :=
  match r with
  | .ctrl => .next (s.mapDev (Device.writeCtrl v))
  | .status => .next (s.mapDev (Device.writeStatus v))
  | .arg => .next (s.mapDev (Device.writeArg v))
  | .cmd => presentWord v s
  | .id => .next s
  | .sin => .next s
  | .cos => .next s
  | .rsv1c => .next s

/-- One bus access. While `rst_n` is asserted the unit ignores it and the model refuses it (R190, log entry 5). Outside the
window the unit never sees it (R51): no state of the unit changes and no data is returned. Inside, an access that `admit`
rejects is a bus error (R54). An admitted read returns the slot's value and changes nothing else (R57); an admitted write
returns no data. -/
def busAccess (a : Access) (s : State) : Result :=
  if !s.rstN then .refused .hostStepInReset
  else if !s.inWindow a.addr then .next { s with rdata := none }
  else if !s.admits a.addr a.size then .fault (.busError a.addr)
  else
    match a.kind with
    | .read => .next { s with rdata := some (s.dev.readReg (regAt a.addr)) }
    | .write v => writeReg (regAt a.addr) v { s with rdata := none }

end Sys2Proof.Machine
end

