-- ==== Sys2Proof/Machine/Agents.lean ====
section
/-! DEFINITION. The two agents (00_scope.md R14): the host, which runs its program (30_encoding.md R77, R78; 20_memory.md
R61), and the engine, which works at the latched command (60_exceptions.md R166). -/

namespace Sys2Proof.Machine

/-- `s32(v)`: the low 32 bits as two's complement (R10). -/
def asS32 (v : Int) : Int := (BitVec.ofInt 32 v).toInt

/-- `u32(v)`: the low 32 bits (R10). -/
def asU32 (v : Int) : Word := BitVec.ofInt 32 v

/-- The value of a host variable, none while it is unbound. -/
def lookupVar (x : HostVar) : List (HostVar × Int) → Option Int
  | [] => none
  | (y, v) :: rest => if x = y then some v else lookupVar x rest

/-- A host variable set; the list stays sorted. -/
def bindVar (x : HostVar) (v : Int) : List (HostVar × Int) → List (HostVar × Int)
  | [] => [(x, v)]
  | (y, w) :: rest =>
    if x < y then (x, v) :: (y, w) :: rest
    else if x = y then (x, v) :: rest
    else (y, w) :: bindVar x v rest

/-- A host variable left without a value. -/
def unbindVar (x : HostVar) : List (HostVar × Int) → List (HostVar × Int)
  | [] => []
  | (y, w) :: rest => if x = y then rest else (y, w) :: unbindVar x rest

/-- The canonical form of the variables: strictly rising. -/
def varsWf : List (HostVar × Int) → Bool
  | [] => true
  | [_] => true
  | (x, _) :: (y, w) :: rest => decide (x < y) && varsWf ((y, w) :: rest)

/-- The value of a host variable: what it was set to, and a free value while it is unbound (log entry 16). -/
def varValue (draw : Nat) (x : HostVar) (vars : List (HostVar × Int)) : Int :=
  (lookupVar x vars).getD (Config.unboundVar draw x)

/-- `m << k`; a negative amount gives a free value (log entry 16). -/
def shiftLeft (draw : Nat) (m k : Int) : Int :=
  if 0 ≤ k then m * 2 ^ k.toNat else Config.negativeShl draw m k

/-- `m >> k`, rounding down as `>>s` does (R10); a negative amount gives a free value (log entry 16). -/
def shiftRight (draw : Nat) (m k : Int) : Int :=
  if 0 ≤ k then m / 2 ^ k.toNat else Config.negativeShr draw m k

/-- The value of a host expression (R77); where the syntax states none it is a free value, picked by `draw` (log entry 16).
`AND` and `OR` read a negative integer as infinite two's complement, as R10 takes the low bits of one: DEDUCED
(log entry 6). -/
def HostExpr.eval (draw : Nat) (vars : List (HostVar × Int)) : HostExpr → Int
  | .lit n => n
  | .var x => varValue draw x vars
  | .mnemonic i => (encode i).toNat
  | .add a b => a.eval draw vars + b.eval draw vars
  | .sub a b => a.eval draw vars - b.eval draw vars
  | .mul a b => a.eval draw vars * b.eval draw vars
  | .and a b => Int.land (a.eval draw vars) (b.eval draw vars)
  | .or a b => Int.lor (a.eval draw vars) (b.eval draw vars)
  | .shl a b => shiftLeft draw (a.eval draw vars) (b.eval draw vars)
  | .shr a b => shiftRight draw (a.eval draw vars) (b.eval draw vars)
  | .s32 a => asS32 (a.eval draw vars)

/-- The value of a host condition; comparisons compare the mathematical values (R10). -/
def HostCond.eval (draw : Nat) (vars : List (HostVar × Int)) : HostCond → Bool
  | .lt a b => decide (a.eval draw vars < b.eval draw vars)
  | .ge a b => decide (a.eval draw vars ≥ b.eval draw vars)
  | .eq a b => decide (a.eval draw vars = b.eval draw vars)
  | .not c => !c.eval draw vars
  | .and c d => c.eval draw vars && d.eval draw vars

/-- The value an expression has for the host now. -/
def State.value (s : State) (e : HostExpr) : Int := e.eval s.draws s.vars

/-- Whether a condition holds for the host now. -/
def State.holds (s : State) (c : HostCond) : Bool := c.eval s.draws s.vars

/-- The host goes on at `k` after a statement that evaluated something: its free values are used up (log entry 16). -/
def State.goOn (k : HostProg) (s : State) : State := { s with prog := k, draws := s.draws + 1 }

/-- One host program after another. -/
def HostProg.append (p q : HostProg) : HostProg :=
  match p with
  | .done => q
  | .write t e k => .write t e (k.append q)
  | .read t x k => .read t x (k.append q)
  | .wait k => .wait (k.append q)
  | .waitIrq k => .waitIrq (k.append q)
  | .assign x e k => .assign x e (k.append q)
  | .loop x a b body k => .loop x a b body (k.append q)
  | .cond c body k => .cond c body (k.append q)

/-- The address and size of a target: a register is `BASE + off(reg)` and 4 bytes (R77). -/
def State.targetAddr (s : State) : Target → Nat × Nat
  | .reg r => (s.base + r.offset, 4)
  | .raw addr size => (addr, size)

/-- The read access of a target. -/
def State.readOf (s : State) (t : Target) : Access :=
  { addr := (s.targetAddr t).1, size := (s.targetAddr t).2, kind := .read }

/-- The write access of a target. -/
def State.writeOf (s : State) (t : Target) (v : Word) : Access :=
  { addr := (s.targetAddr t).1, size := (s.targetAddr t).2, kind := .write v }

/-- The variable of an `RD` takes the read data; a read that returned none leaves it without a value (log entry 6), so that
reading it gives a free value (log entry 16). -/
def bindRead (x : HostVar) (s : State) : State :=
  match s.rdata with
  | some v => { s with vars := bindVar x v.toNat s.vars }
  | none => { s with vars := unbindVar x s.vars }

/-- `WAIT` goes on to `k` once the STATUS just read has DONE = 1 (R77). R77 writes the poll as `RD STATUS -> s`; the `s` is taken as
local to the wait, and no variable of the host is set: DESIGN CHOICE (log entry 18). -/
def endWait (k : HostProg) (s : State) : State :=
  match s.rdata with
  | some v => if v.getLsbD 1 then { s with prog := k } else s
  | none => s

/-- The bus access the host makes when it moves, none for host-side computation and waiting for `irq`. -/
def State.hostAccess (s : State) : Option Access :=
  match s.prog with
  | .write t e _ => some (s.writeOf t (asU32 (s.value e)))
  | .read t _ _ => some (s.readOf t)
  | .wait _ => some (s.readOf (.reg .status))
  | .done => none
  | .waitIrq _ => none
  | .assign _ _ _ => none
  | .loop _ _ _ _ _ => none
  | .cond _ _ _ => none

/-- The next thing of the host's program, in program order (R14, R59, R77). -/
def hostStatement (s : State) : Result :=
  match s.prog with
  | .done => .next s
  | .write t e k => busAccess (s.writeOf t (asU32 (s.value e))) (s.goOn k)
  | .read t x k => onNext (bindRead x) (busAccess (s.readOf t) { s with prog := k })
  | .wait k => onNext (endWait k) (busAccess (s.readOf (.reg .status)) s)
  | .waitIrq k => .next (if s.dev.irq then { s with prog := k } else s)
  | .assign x e k => .next { s.goOn k with vars := bindVar x (s.value e) s.vars }
  | .loop x a b body k =>
    .next (if s.value a ≤ s.value b then
        { s.goOn (body.append (.loop x (.lit (s.value a + 1)) (.lit (s.value b)) body k)) with
          vars := bindVar x (s.value a) s.vars }
      else s.goOn k)
  | .cond c body k => .next (s.goOn (if s.holds c then body.append k else k))

/-- The host's step: its next statement; there is no host step while `rst_n` is asserted (R190, log entry 5). -/
def hostStep (s : State) : Result :=
  if s.rstN then hostStatement s else .refused .hostStepInReset

/-- The engine's step: the latched command's own step (R166). Nothing is enabled while ESTATE is IDLE. -/
def engineStep (s : State) : Result :=
  match s.dev.estate with
  | .idle => .next s
  | .run =>
    match instrOfOp s.dev.oplatch with
    | some i => exec i s
    | none => .refused .latchNeverAccepted

/-- `WR <reg>, <value>` (R77). -/
def wr (r : Reg) (e : HostExpr) (k : HostProg) : HostProg := .write (.reg r) e k

/-- `RD <reg> -> <name>` (R77). -/
def rd (r : Reg) (x : HostVar) (k : HostProg) : HostProg := .read (.reg r) x k

/-- `FSINCOS.S <phase>` (R78); `xs` and `xc` are the variables `sin` and `cos`. -/
def fsincosS (phase : HostExpr) (xs xc : HostVar) (k : HostProg) : HostProg :=
  wr .arg phase (wr .cmd (.mnemonic .fsincos) (.wait (rd .sin xs (rd .cos xc k))))

/-- `SIN64.S <n>` (R78). -/
def sin64S (n : HostExpr) (xs xc : HostVar) (k : HostProg) : HostProg :=
  wr .arg n (wr .cmd (.mnemonic .sin64rot) (.wait (rd .sin xs (rd .cos xc k))))

/-- `ROM.S <sel>, <idx>` (R78). -/
def romS (sel idx : HostExpr) (x : HostVar) (k : HostProg) : HostProg :=
  wr .arg (.or (.shl sel (.lit 8)) idx) (wr .cmd (.mnemonic .romrd) (.wait (rd .sin x k)))

/-- `CLRST` (R78). -/
def clrst (k : HostProg) : HostProg := wr .status (.lit 0x3E) k

/-- `SRESET` (R78). -/
def sreset (k : HostProg) : HostProg := wr .ctrl (.lit 2) k

end Sys2Proof.Machine
end

