-- ==== Sys2Proof/Machine/Step.lean ====
section
/-! DEFINITION. One step of the machine, and the placing of one command where the next step takes it. -/

namespace Sys2Proof.Machine

/-- One step: the agent whose turn it is moves, with the unit held at its reset values while `rst_n` is asserted
(20_memory.md R60, 70_reset_and_hazards.md R190). -/
def step (s : State) : Host.Outcome State Fault Refusal :=
  match s.mover with
  | .host => onNext State.popTurn (hostStep s.holdReset)
  | .engine => onNext State.popTurn (engineStep s.holdReset)
  | .clock => onNext State.popTurn (engineStep s.holdReset)
  | .rst asserted => .next (s.rstPin asserted).popTurn

/-- `s` with the command word `w` as the host's next CMD write, the host to move and `rst_n` released (20_memory.md R64: "A
command is the data of one CMD write"; log entry 12). -/
def State.withFetchWord (s : State) (nbits w : Nat) : State :=
  { s with
    prog := .write (.reg .cmd) (.lit (tableBits nbits w)) s.prog
    turns := .host :: s.turns
    rstN := true }

end Sys2Proof.Machine
end

