-- ==== Sys2Proof/Safety.lean ====
section
/-! DEFINITION. What counts as a sound state and a safe step, in the terms the claims use. -/

namespace Sys2Proof.Machine

/-- While an FSINCOS is part way through its inner cycles, the engine's vector is CI rotations of the normalised phase, and the
cycles left are the rotations still to do and the write-back (10_state.md R34, 40_trig_ops.md R102, R103, 70_reset_and_hazards.md
R210). DESIGN CHOICE, log entry 8: the spec leaves open what these hidden fields hold between the cycles. -/
def Device.cordicOnTrack (d : Device) : Prop :=
  d.remain < Config.latFsincos →
    d.remain + d.ci.val = Config.nIter + 1 ∧ d.vec = rotations d.ci.val (normalise (phaseOf d.opnd))

/-- What acceptance and completion keep of the unit: OPLATCH is an assigned opcode; idle means no cycle left; running means
DONE is clear (R165), LASTOP is the running opcode (R162, R163), the operand of a ROMRD is in range, and 1 to the latency's
number of cycles are left (R162, R210). `idle` and `cordic` are the model's choice (log entry 8). -/
structure Device.Sound (d : Device) : Prop where
  latch : d.oplatch.toNat < 4
  idle : d.estate = .idle → d.remain = 0
  done : d.estate = .run → d.done = false
  lastop : d.estate = .run → d.lastop = d.oplatch
  cycles : d.estate = .run → 1 ≤ d.remain ∧ d.remain ≤ latencyOf d.oplatch
  range : d.estate = .run → d.oplatch = opcodeOf .romrd → romInRange d.opnd = true
  cordic : d.estate = .run → d.oplatch = opcodeOf .fsincos → d.cordicOnTrack

/-- The machine's invariant: the unit is sound, it holds its reset values while `rst_n` is asserted (R190), and the host's
variables are in their canonical form. -/
structure State.Inv (s : State) : Prop where
  dev : s.dev.Sound
  held : s.rstN = false → s.dev = Device.reset
  vars : varsWf s.vars = true

/-- The host may move: `rst_n` is released (R190), and its next access, if it makes one, is one the unit admits or one it never
sees (R51, R53). -/
def State.hostSafe (s : State) : Prop :=
  s.rstN = true ∧ ∀ a, s.hostAccess = some a → s.inWindow a.addr = true → s.admits a.addr a.size = true

/-- A safe state: the next step neither faults nor is refused, whoever moves. -/
def State.safe (s : State) : Prop := s.Inv ∧ (s.mover = .host → s.hostSafe)

/-- The step performs an admitted write of `v` to slot `r` (R53, R58). -/
def State.hostWrites (s : State) (r : Reg) (v : Word) : Prop :=
  s.rstN = true ∧ s.mover = .host ∧
    ∃ a, s.hostAccess = some a ∧ s.inWindow a.addr = true ∧ s.admits a.addr a.size = true ∧ regAt a.addr = r ∧
      a.kind = .write v

/-- The step resets the unit: `rst_n` is asserted before it or becomes asserted (R190), or CTRL bit 1 is written with 1
(R191). -/
def State.resets (s : State) : Prop :=
  s.rstN = false ∨ s.mover = .rst true ∨ ∃ v, s.hostWrites .ctrl v ∧ v.getLsbD 1 = true

/-- The step is a completion (R166): the engine's turn while RUN, or the clock cycle in which REMAIN reaches 0. -/
def State.completes (s : State) : Prop :=
  s.rstN = true ∧ s.dev.estate = .run ∧ (s.mover = .engine ∨ s.mover = .clock ∧ s.dev.remain ≤ 1)

/-! The pseudocode of R102 and R103 on mathematical integers, with the primitives of R10: the reference that the bit-vector
function `cordic` is held against. -/

/-- `s32(v)`: the low 32 bits of an integer as two's complement (R10). -/
def refS32 (v : Int) : Int := (v + 2 ^ 31) % 2 ^ 32 - 2 ^ 31

/-- (x, y, z) with x and y s32 and z u32. -/
structure RefVec where
  x : Int
  y : Int
  z : Int
  deriving DecidableEq, Repr

/-- R102 on integers: the gain is 1304065735 in size, QTR is 1073741823 and 3 QTR is 3221225469. -/
def refNormalise (phase : Int) : RefVec :=
  if phase < 1073741823 then { x := refS32 (0 - -1304065735), y := 0, z := (phase + 1073741823) % 2 ^ 32 }
  else if phase < 3221225469 then { x := -1304065735, y := 0, z := (phase - 1073741823) % 2 ^ 32 }
  else { x := refS32 (0 - -1304065735), y := 0, z := (phase - 3221225469) % 2 ^ 32 }

/-- One rotation of R103 on integers; `a >>s i` is `floor(a / 2^i)` (R10). -/
def refRotate (i : Nat) (z1 : Int) (v : RefVec) : RefVec :=
  if v.z ≥ 1073741823 then
    { x := refS32 (v.x - v.y / 2 ^ i), y := refS32 (v.y + v.x / 2 ^ i), z := (v.z - z1) % 2 ^ 32 }
  else
    { x := refS32 (v.x + v.y / 2 ^ i), y := refS32 (v.y - v.x / 2 ^ i), z := (v.z + z1) % 2 ^ 32 }

/-- R103's loop on integers along the arctangent table, from step `i` on. -/
def refLoop : Nat → List Word → RefVec → RefVec
  | _, [], v => v
  | i, z1 :: rest, v => refLoop (i + 1) rest (refRotate i z1.toNat v)

/-- `cordic(PHASE)` on integers: (s = y, c = x). -/
def refCordic (phase : Nat) : Int × Int :=
  let v := refLoop 0 atanRom.toList (refNormalise phase)
  (v.y, v.x)

/-- The accuracy guarantee of R106 for the results (sine, cosine) of a phase: each is within 128 of 2^31 times the sine or cosine
of the angle 2 pi PHASE / 2^32 (i), and the sum of their squares is within 2^62 times 2^-22 of 2^62 (ii). A property of the
bit-exact `cordic`, which does not use it; the law `cordic_meetsAccuracy` shows it for every phase. -/
def meetsAccuracy (phase : Word) (r : Word × Word) : Prop :=
  |(r.1.toInt : ℝ) - 2 ^ 31 * Real.sin (2 * Real.pi * phase.toNat / 2 ^ 32)| ≤ 128 ∧
  |(r.2.toInt : ℝ) - 2 ^ 31 * Real.cos (2 * Real.pi * phase.toNat / 2 ^ 32)| ≤ 128 ∧
  |r.1.toInt ^ 2 + r.2.toInt ^ 2 - 2 ^ 62| ≤ 2 ^ 40

end Sys2Proof.Machine
end

