-- ==== Sys2Proof/Certificates/Slice0/Obligations.lean ====
section
/-! DEFINITION. The statements about the machine, each from the rules of spec/ its docstring names. A bus access is written
with the offset of its register added to BASE, as 41_control_ops.md writes it. -/

open Sys2Proof Sys2Proof.Machine

/-! ## Encoding -/

/-- Words written out from R71 and R75 decode as the table says (30_encoding.md R71, R72, R75, R161's example 0x17). -/
def Obligations.WrittenOutWordsDecode : Prop :=
  decodeLanes 0x00#8 0x00#8 0x00#8 0x00#8 = .instr .nop ∧
  decodeLanes 0x01#8 0x00#8 0x00#8 0x00#8 = .instr .fsincos ∧
  decodeLanes 0x02#8 0x00#8 0x00#8 0x00#8 = .instr .sin64rot ∧
  decodeLanes 0x03#8 0x00#8 0x00#8 0x00#8 = .instr .romrd ∧
  decodeLanes 0x04#8 0x00#8 0x00#8 0x00#8 = .illegalOp 0x4#4 ∧
  decodeLanes 0x17#8 0x00#8 0x00#8 0x00#8 = .illegalOp 0x7#4 ∧
  decodeLanes 0x11#8 0x00#8 0x00#8 0x00#8 = .reservedBits 0x1#4 ∧
  decodeLanes 0x00#8 0x00#8 0x00#8 0x80#8 = .reservedBits 0x0#4

/-- R72: the unassigned-opcode check first, then the reserved bits, then the opcode's command; the fields are taken here by
division and remainder. -/
def Obligations.DecodeChecksOpcodeThenReservedBits : Prop :=
  ∀ w : Word,
    (4 ≤ w.toNat % 16 → decodeWord w = .illegalOp (BitVec.ofNat 4 (w.toNat % 16))) ∧
    (w.toNat % 16 < 4 → w.toNat / 16 ≠ 0 → decodeWord w = .reservedBits (BitVec.ofNat 4 (w.toNat % 16))) ∧
    (w.toNat / 16 = 0 → w.toNat % 16 = 0 → decodeWord w = .instr .nop) ∧
    (w.toNat / 16 = 0 → w.toNat % 16 = 1 → decodeWord w = .instr .fsincos) ∧
    (w.toNat / 16 = 0 → w.toNat % 16 = 2 → decodeWord w = .instr .sin64rot) ∧
    (w.toNat / 16 = 0 → w.toNat % 16 = 3 → decodeWord w = .instr .romrd)

/-- Over all 2^32 words, exactly the encoded word of a command decodes to it, and it is well formed (R71: the mask covers every
bit; R75, R76). -/
def Obligations.DecodeIffEncode : Prop :=
  ∀ (w : Word) (i : Instr), (decodeWord w = .instr i ↔ w = encode i) ∧ (wellFormedWord w = true ↔ ∃ j, w = encode j)

/-- A word numbered as the opcode table numbers it gives a command exactly when its bits are that command's word, whatever
number of bits the row is given (R71, R76). -/
def Obligations.TableWordDecodesIffEncoded : Prop :=
  ∀ (nbits n : Nat) (i : Instr), decodeTableWord nbits n = some i ↔ n % 2 ^ nbits = (encode i).toNat

/-- Little-endian lanes (20_memory.md R55): lane k carries bits [8k+7:8k], and the lanes put together are the word, so a
command read from its lanes decodes as its word. -/
def Obligations.ByteLanesCarryTheWord : Prop :=
  ∀ w : Word,
    (∀ (k : Fin 4) (j : Nat), j < 8 → (byteLane w k).getLsbD j = w.getLsbD (8 * k.val + j)) ∧
    wordOfLanes (byteLane w 0) (byteLane w 1) (byteLane w 2) (byteLane w 3) = w ∧
    decodeLanes (byteLane w 0) (byteLane w 1) (byteLane w 2) (byteLane w 3) = decodeWord w

/-! ## A step runs the decoded command -/

/-- A CMD write of a word that decodes to a command runs that command's meaning (41_control_ops.md R144, 60_exceptions.md R162,
30_encoding.md R72); the step goes past the host's write and uses the turn up. `t` is CMD by name or any 4-byte access at
BASE + 0x10. That a write leaves no read data, that its word is the value's low 32 bits, and the count of evaluations are the
model's (log entries 4, 6, 16). -/
def Obligations.StepRunsTheWrittenCommand : Prop :=
  ∀ (s : State) (t : Target) (e : HostExpr) (k : HostProg) (i : Instr),
    s.rstN = true → s.mover = .host → s.prog = .write t e k →
    s.targetAddr t = (s.base + 0x10, 4) → decodeWord (asU32 (s.value e)) = .instr i →
      step s = onNext State.popTurn (exec i { s with prog := k, rdata := none, draws := s.draws + 1 })

/-- While a command runs, the engine's turn and a clock cycle run the meaning of the latched command (R166, R34). -/
def Obligations.StepRunsTheLatchedCommand : Prop :=
  ∀ (s : State) (i : Instr),
    s.rstN = true → s.mover = .engine ∨ s.mover = .clock → s.dev.estate = .run → s.dev.oplatch = opcodeOf i →
      step s = onNext State.popTurn (exec i s)

/-- The word that `withFetchWord` places is the one the very next step runs, in every state. The placing, that the write leaves no
read data, and the count of evaluations are the model's (log entries 12, 4, 16). -/
def Obligations.PlacedWordRunsNext : Prop :=
  ∀ (s : State) (i : Instr),
    step (s.withFetchWord 32 (encode i).toNat) =
      onNext State.popTurn
        (exec i { s with turns := .host :: s.turns, rstN := true, rdata := none, draws := s.draws + 1 })

/-- A host WR or RD is one bus access, in program order (R11, R14, R59, R77); the write's data is its expression's value, and
the read's variable takes the data. That a value is cut to its low 32 bits, and that a read without data leaves its variable
unbound (`bindRead`), are the model's (log entry 6), and so is the count of evaluations (log entry 16). -/
def Obligations.HostStatementIsOneBusAccess : Prop :=
  ∀ (s : State) (t : Target) (k : HostProg), s.rstN = true → s.mover = .host →
    (∀ e : HostExpr, s.prog = .write t e k →
      step s = onNext State.popTurn
        (busAccess { addr := (s.targetAddr t).1, size := (s.targetAddr t).2, kind := .write (asU32 (s.value e)) }
          { s with prog := k, draws := s.draws + 1 })) ∧
    (∀ x : HostVar, s.prog = .read t x k →
      step s = onNext (fun u => (bindRead x u).popTurn)
        (busAccess { addr := (s.targetAddr t).1, size := (s.targetAddr t).2, kind := .read } { s with prog := k }))

/-- WAIT (R61 (a), R77): each turn reads STATUS and changes no register, and the host goes on exactly when the STATUS read has
DONE = 1; a wait for `irq` (R61 (b)) goes on exactly when `irq` = 1. That the wait sets no variable is the model's (log
entry 18). -/
def Obligations.WaitEndsWhenDone : Prop :=
  ∀ (s : State) (k : HostProg), s.rstN = true → s.mover = .host →
    (s.prog = .wait k →
      step s = .next { s with
        rdata := some s.dev.statusWord
        prog := if s.dev.done then k else .wait k
        turns := s.turns.tail }) ∧
    (s.prog = .waitIrq k →
      step s = .next { s with
        prog := if s.dev.ie = true ∧ s.dev.done = true then k else .waitIrq k
        turns := s.turns.tail })

/-! ## Acceptance, rejection, drop -/

/-- Every command presented while IDLE is accepted (R162), ROMRD when its index is in range: the opcode and ARG are latched,
LASTOP recorded, DONE cleared, BUSY set and REMAIN loaded; nothing else changes. -/
def Obligations.IdleCommandIsAccepted : Prop :=
  ∀ (s : State) (i : Instr),
    s.mover = .host → s.dev.estate = .idle → (i = .romrd → romInRange s.dev.arg = true) →
      exec i s = .next { s with dev := { s.dev with
        oplatch := opcodeOf i
        opnd := s.dev.arg
        lastop := opcodeOf i
        done := false
        estate := .run
        remain := if i = .fsincos then 33 else 1 } }

/-- R163: a CMD write of any word while BUSY = 1 sets ERR_OVR and changes nothing else. -/
def Obligations.BusyCommandWriteIsDropped : Prop :=
  ∀ (s : State) (w : Word),
    s.rstN = true → s.mover = .host → s.dev.estate = .run →
      ∃ r : Option Word, busAccess { addr := s.base + 0x10, size := 4, kind := .write w } s =
        .next { s with rdata := r, dev := { s.dev with errOvr := true } }

/-- R164: a rejected command sets its error bit and DONE, records the opcode, and leaves SIN, COS, OPND, OPLATCH, ESTATE and all
else unchanged; which words are rejected with which error is R162's. -/
def Obligations.RejectedCommandRecordsItsError : Prop :=
  ∀ (s : State) (w : Word),
    s.rstN = true → s.mover = .host → s.dev.estate = .idle →
      (4 ≤ w.toNat % 16 →
        ∃ r : Option Word, busAccess { addr := s.base + 0x10, size := 4, kind := .write w } s =
          .next { s with rdata := r, dev := { s.dev with
            errIllop := true, lastop := BitVec.ofNat 4 (w.toNat % 16), done := true } }) ∧
      (w.toNat % 16 < 4 → w.toNat / 16 ≠ 0 →
        ∃ r : Option Word, busAccess { addr := s.base + 0x10, size := 4, kind := .write w } s =
          .next { s with rdata := r, dev := { s.dev with
            errRsvd := true, lastop := BitVec.ofNat 4 (w.toNat % 16), done := true } }) ∧
      (w.toNat = 3 → romInRange s.dev.arg = false →
        ∃ r : Option Word, busAccess { addr := s.base + 0x10, size := 4, kind := .write w } s =
          .next { s with rdata := r, dev := { s.dev with errRange := true, lastop := 3, done := true } })

/-- R161: one CMD write sets at most one error bit, the first that applies of ERR_OVR, ERR_ILLOP, ERR_RSVD, ERR_RANGE, the
last only for a well-formed ROMRD word; no write clears an error bit this way. -/
def Obligations.OneErrorPerCommandWrite : Prop :=
  ∀ (s : State) (w : Word),
    s.rstN = true → s.mover = .host →
      ∃ t : State, busAccess { addr := s.base + 0x10, size := 4, kind := .write w } s = .next t ∧
        ∀ f : ErrFlag, t.dev.err f = (s.dev.err f || decide (
          (if s.dev.estate = .run then some ErrFlag.ovr
            else if 4 ≤ w.toNat % 16 then some ErrFlag.illop
            else if w.toNat / 16 ≠ 0 then some ErrFlag.rsvd
            else if w.toNat = 3 ∧ romInRange s.dev.arg = false then some ErrFlag.range
            else none) = some f))

/-- The range test of R162 by division and remainder: bit 8 selects the table and bits [5:0] are the index; it holds exactly when
the selected table holds such a word (R73, R74, R120). -/
def Obligations.RomRangeFollowsTheTables : Prop :=
  ∀ a : Word,
    (romInRange a = true ↔
      (a.toNat / 256 % 2 = 0 ∧ a.toNat % 64 ≤ 32) ∨ (a.toNat / 256 % 2 = 1 ∧ a.toNat % 64 ≤ 30)) ∧
    (romInRange a = true ↔ ∃ w, romWord (romSelOf a) (romIdxOf a) = some w)

/-- R121: ROMRD with an index outside its table is rejected at acceptance with ERR_RANGE; SIN and COS are unchanged, and BUSY
stays 0. -/
def Obligations.RomrdOutOfRangeIsRejected : Prop :=
  ∀ s : State, s.mover = .host → s.dev.estate = .idle →
    (s.dev.arg.toNat / 256 % 2 = 0 ∧ 33 ≤ s.dev.arg.toNat % 64) ∨
      (s.dev.arg.toNat / 256 % 2 = 1 ∧ 31 ≤ s.dev.arg.toNat % 64) →
    exec .romrd s = .next { s with dev := { s.dev with errRange := true, lastop := 3, done := true } }

/-! ## Completion -/

/-- NOP completes (R140, R166): SIN and COS are unchanged, BUSY falls and DONE rises. That REMAIN is then 0 is the model's (log
entry 8). -/
def Obligations.NopCompletes : Prop :=
  ∀ s : State, s.mover = .engine → s.dev.estate = .run →
    exec .nop s = .next { s with dev := { s.dev with estate := .idle, done := true, remain := 0 } }

/-- FSINCOS completes (R101, R166): SIN and COS take `cordic` of the latched operand. The values left in CX, CY, CZ, CI and
REMAIN are the model's (log entry 8). -/
def Obligations.FsincosCompletes : Prop :=
  ∀ s : State, s.mover = .engine → s.dev.estate = .run →
    exec .fsincos s = .next { s with dev := { s.dev with
      sin := (cordic s.dev.opnd).1
      cos := (cordic s.dev.opnd).2
      cx := (cordic s.dev.opnd).2
      cy := (cordic s.dev.opnd).1
      cz := (cordicVec s.dev.opnd).z
      ci := 31
      estate := .idle
      done := true
      remain := 0 } }

/-- SIN64ROT completes (R110, R111, R166): with N = OPND[5:0], SIN and COS take the folded table entries, whatever OPND[31:6]
holds. -/
def Obligations.Sin64rotCompletes : Prop :=
  ∀ (s : State) (a b : Word), s.mover = .engine → s.dev.estate = .run →
    (s.dev.opnd.toNat % 64 < 32 → sin64Rom[s.dev.opnd.toNat % 64]? = some a →
      sin64Rom[32 - s.dev.opnd.toNat % 64]? = some b →
      exec .sin64rot s = .next { s with dev := { s.dev with
        sin := a, cos := b, estate := .idle, done := true, remain := 0 } }) ∧
    (32 ≤ s.dev.opnd.toNat % 64 → sin64Rom[64 - s.dev.opnd.toNat % 64]? = some a →
      sin64Rom[s.dev.opnd.toNat % 64 - 32]? = some b →
      exec .sin64rot s = .next { s with dev := { s.dev with
        sin := a, cos := BitVec.ofInt 32 (0 - b.toInt), estate := .idle, done := true, remain := 0 } })

/-- ROMRD completes (R120, R166): SIN takes the word of SIN64_ROM (bit 8 of OPND 0) or ATAN_ROM (bit 8 of OPND 1) at OPND[5:0],
and COS takes 0. -/
def Obligations.RomrdCompletes : Prop :=
  ∀ (s : State) (a : Word), s.mover = .engine → s.dev.estate = .run →
    (s.dev.opnd.toNat / 256 % 2 = 0 ∧ sin64Rom[s.dev.opnd.toNat % 64]? = some a) ∨
      (s.dev.opnd.toNat / 256 % 2 = 1 ∧ atanRom[s.dev.opnd.toNat % 64]? = some a) →
    exec .romrd s = .next { s with dev := { s.dev with
      sin := a, cos := 0, estate := .idle, done := true, remain := 0 } }

/-- R166: the engine's step while RUN, by OPLATCH: the results go to SIN and COS (for FSINCOS, those of the integer pseudocode),
BUSY falls and DONE rises, no error bit and no other register of the host's changes, and it cannot fail in a sound state. What it
leaves in CX, CY, CZ, CI and REMAIN the rule does not say. -/
def Obligations.CompletionStep : Prop :=
  ∀ s : State, s.Inv → s.rstN = true → s.mover = .engine → s.dev.estate = .run →
    ∃ (c : Word × Word) (x y z : Word) (j : Fin 32) (r : Nat),
      step s = .next { s with
        turns := s.turns.tail
        dev := { s.dev with
          sin := c.1, cos := c.2, estate := .idle, done := true, cx := x, cy := y, cz := z, ci := j, remain := r } } ∧
      (s.dev.oplatch = 0 → c = (s.dev.sin, s.dev.cos)) ∧
      (s.dev.oplatch = 1 →
        c = (asU32 (refCordic s.dev.opnd.toNat).1, asU32 (refCordic s.dev.opnd.toNat).2)) ∧
      (s.dev.oplatch = 2 → c = fold (s.dev.opnd.extractLsb' 0 6)) ∧
      (s.dev.oplatch = 3 → romWord (s.dev.opnd.getLsbD 8) (s.dev.opnd.extractLsb' 0 6) = some c.1 ∧ c.2 = 0)

/-- A clock cycle of a running command with more than one cycle left counts REMAIN down and changes nothing the host can read
(R27, R28, R34, R210). FSINCOS does one inner cycle: with all 33 cycles left it normalises OPND (R102) with CI = 0, and after
that it makes rotation CI (R103) and counts CI up. That CX, CY, CZ and CI hold just these in between is the model's reading of
R210 (log entry 8). -/
def Obligations.ClockCycleCountsDown : Prop :=
  ∀ s : State, s.mover = .clock → s.dev.estate = .run → 1 < s.dev.remain →
    (∀ i : Instr, i ≠ .fsincos →
      exec i s = .next { s with dev := { s.dev with remain := s.dev.remain - 1 } }) ∧
    ∃ (v : Vec) (j : Fin 32),
      exec .fsincos s = .next { s with dev := { s.dev with
        cx := v.x, cy := v.y, cz := v.z, ci := j, remain := s.dev.remain - 1 } } ∧
      (s.dev.remain = 33 → v = normalise s.dev.opnd ∧ j = 0) ∧
      (s.dev.remain ≠ 33 → s.dev.ci.val < 31 →
        v = rotateStep s.dev.ci.val { x := s.dev.cx, y := s.dev.cy, z := s.dev.cz } ∧ j.val = s.dev.ci.val + 1)

/-- The clock cycle in which REMAIN reaches 0 completes the command as the engine's completion step does (R166). -/
def Obligations.LastClockCycleCompletes : Prop :=
  ∀ (s : State) (i : Instr), s.mover = .clock → s.dev.estate = .run → s.dev.remain ≤ 1 →
    exec i s = onNext (fun t => { t with turns := s.turns }) (exec i { s with turns := [.engine] })

/-- The engine has nothing to do while ESTATE = IDLE (R166, R175): an engine turn or a clock cycle changes only the turn. -/
def Obligations.IdleEngineDoesNothing : Prop :=
  ∀ s : State, s.rstN = true → s.dev.estate = .idle → s.mover = .engine ∨ s.mover = .clock →
    step s = .next { s with turns := s.turns.tail }

/-! ## The numeric functions -/

/-- R102: the three quadrant branches, by the integer value of the phase, and the range of z. -/
def Obligations.QuadrantNormalisation : Prop :=
  ∀ p : Word,
    (normalise p).y = 0 ∧ (normalise p).z.toNat ≤ 0x7FFFFFFD ∧
    (p.toNat < 0x3FFFFFFF →
      (normalise p).x.toInt = 1304065735 ∧ (normalise p).z.toNat = p.toNat + 0x3FFFFFFF) ∧
    (0x3FFFFFFF ≤ p.toNat → p.toNat < 0xBFFFFFFD →
      (normalise p).x.toInt = -1304065735 ∧ (normalise p).z.toNat = p.toNat - 0x3FFFFFFF) ∧
    (0xBFFFFFFD ≤ p.toNat →
      (normalise p).x.toInt = 1304065735 ∧ (normalise p).z.toNat = p.toNat - 0xBFFFFFFD)

/-- The bit-vector CORDIC computes, for every phase, what the pseudocode of R102 and R103 computes on mathematical integers with
the primitives of R10 (floor shifts, `s32` after every addition, R12). -/
def Obligations.CordicMatchesIntegerPseudocode : Prop :=
  ∀ p : Word, ((cordic p).1.toInt, (cordic p).2.toInt) = refCordic p.toNat

/-- R103's notes: z never wraps; each of the 31 steps subtracts its table entry exactly when z >= QTR, and stays at or above
0x20000000, and otherwise adds it and stays below 0x5FFFFFFE. -/
def Obligations.AngleAccumulatorNeverWraps : Prop :=
  ∀ (i : Nat) (v : Vec), i < 31 → ∃ a : Word, atanRom[i]? = some a ∧
    (0x3FFFFFFF ≤ v.z.toNat →
      (rotateStep i v).z.toNat + a.toNat = v.z.toNat ∧ 0x20000000 ≤ (rotateStep i v).z.toNat) ∧
    (v.z.toNat < 0x3FFFFFFF →
      (rotateStep i v).z.toNat = v.z.toNat + a.toNat ∧ (rotateStep i v).z.toNat < 0x5FFFFFFE)

/-- The rotation converges for every phase: after the 31 steps the angle still to turn is at least -10 and at most 9 phase units
(R102, R103, with the table of R31; this bound is derived, the spec states none), and the results meet the accuracy guarantee of
R106: `cordic` for every phase, and what FSINCOS leaves in SIN and COS for its operand. -/
def Obligations.ResidualAngleIsSmall : Prop :=
  (∀ p : Word, 0x3FFFFFFF ≤ (cordicVec p).z.toNat + 10 ∧ (cordicVec p).z.toNat ≤ 0x3FFFFFFF + 9 ∧
    meetsAccuracy p (cordic p)) ∧
  ∀ d : Device, meetsAccuracy (phaseOf d.opnd) ((fsincosResult d).sin, (fsincosResult d).cos)

/-- R111: the folding of the 6-bit angle index into the quarter-period table; every index used is one of the table's, and the
negation does not overflow. -/
def Obligations.FoldingRule : Prop :=
  ∀ n : BitVec 6,
    (n.toNat < 32 →
      sin64Rom[n.toNat]? = some (fold n).1 ∧ sin64Rom[32 - n.toNat]? = some (fold n).2) ∧
    (32 ≤ n.toNat →
      sin64Rom[64 - n.toNat]? = some (fold n).1 ∧
      (sin64Rom[n.toNat - 32]?).map BitVec.toInt = some (-(fold n).2.toInt))

/-- Corner cases (f), (g) and (h) of R112: the sine is never negative, the cosine is negative exactly for N > 32, and OPND[31:6]
has no effect. -/
def Obligations.FoldedSignsAndIgnoredBits : Prop :=
  ∀ a b : Word,
    0 ≤ (fold (angleIndexOf a)).1.toInt ∧
    ((fold (angleIndexOf a)).2.toInt < 0 ↔ 32 < a.toNat % 64) ∧
    (a.toNat % 64 = b.toNat % 64 → fold (angleIndexOf a) = fold (angleIndexOf b))

/-- R113's bound: sinv^2 + cosv^2 lies within 2^62 (1 +- 2^-29) for every angle index. -/
def Obligations.FoldedPairHasUnitNorm : Prop :=
  ∀ n : BitVec 6,
    (fold n).1.toInt ^ 2 + (fold n).2.toInt ^ 2 ≤ 2 ^ 62 + 2 ^ 33 ∧
    2 ^ 62 - 2 ^ 33 ≤ (fold n).1.toInt ^ 2 + (fold n).2.toInt ^ 2

/-! ## Register accesses -/

/-- R141: a CTRL write with bit 1 set resets the unit and does not keep bit 0; otherwise IE takes bit 0, no other bit of the
write matters, and `irq` is at once IE AND DONE. A command in progress goes on. -/
def Obligations.CtrlWrite : Prop :=
  ∀ (s : State) (v : Word), s.rstN = true → s.mover = .host →
    (v.getLsbD 1 = true →
      ∃ r : Option Word, busAccess { addr := s.base + 0x04, size := 4, kind := .write v } s =
        .next { s with rdata := r, dev := Device.reset }) ∧
    (v.getLsbD 1 = false →
      (∃ r : Option Word, busAccess { addr := s.base + 0x04, size := 4, kind := .write v } s =
        .next { s with rdata := r, dev := { s.dev with ie := v.getLsbD 0 } }) ∧
      Device.irq { s.dev with ie := v.getLsbD 0 } = (v.getLsbD 0 && s.dev.done))

/-- R142: a STATUS write clears each of DONE, ERR_ILLOP, ERR_RSVD, ERR_OVR and ERR_RANGE written with 1, and changes nothing
else. -/
def Obligations.StatusWriteClearsTheBitsWrittenWithOne : Prop :=
  ∀ (s : State) (v : Word), s.rstN = true → s.mover = .host →
    ∃ r : Option Word, busAccess { addr := s.base + 0x08, size := 4, kind := .write v } s =
      .next { s with rdata := r, dev := { s.dev with
        done := if v.getLsbD 1 then false else s.dev.done
        errIllop := if v.getLsbD 2 then false else s.dev.errIllop
        errRsvd := if v.getLsbD 3 then false else s.dev.errRsvd
        errOvr := if v.getLsbD 4 then false else s.dev.errOvr
        errRange := if v.getLsbD 5 then false else s.dev.errRange } }

/-- R143: an ARG write sets all 32 bits of ARG and nothing else, OPND of a command in progress included. -/
def Obligations.ArgWrite : Prop :=
  ∀ (s : State) (v : Word), s.rstN = true → s.mover = .host →
    ∃ r : Option Word, busAccess { addr := s.base + 0x0C, size := 4, kind := .write v } s =
      .next { s with rdata := r, dev := { s.dev with arg := v } }

/-- R145: writes to ID, SIN, COS and the reserved offset 0x1C leave all state unchanged and raise no error. -/
def Obligations.ReadOnlyAndReservedWritesAreIgnored : Prop :=
  ∀ (s : State) (v : Word) (off : Nat), s.rstN = true → s.mover = .host →
    off = 0x00 ∨ off = 0x14 ∨ off = 0x18 ∨ off = 0x1C →
      ∃ r : Option Word, busAccess { addr := s.base + off, size := 4, kind := .write v } s = .next { s with rdata := r }

/-- R146: what a read of each offset returns; it changes no state but the read data (R57). STATUS is given here by the weight
of its bits. -/
def Obligations.ReadsReturnTheRegister : Prop :=
  ∀ s : State, s.rstN = true →
    busAccess { addr := s.base + 0x00, size := 4, kind := .read } s = .next { s with rdata := some 0x43524401#32 } ∧
    busAccess { addr := s.base + 0x04, size := 4, kind := .read } s =
      .next { s with rdata := some (BitVec.ofNat 32 s.dev.ie.toNat) } ∧
    busAccess { addr := s.base + 0x08, size := 4, kind := .read } s =
      .next { s with rdata := some (BitVec.ofNat 32
        ((if s.dev.estate = .run then 1 else 0) + 2 * s.dev.done.toNat + 4 * s.dev.errIllop.toNat +
          8 * s.dev.errRsvd.toNat + 16 * s.dev.errOvr.toNat + 32 * s.dev.errRange.toNat +
          256 * s.dev.lastop.toNat)) } ∧
    busAccess { addr := s.base + 0x0C, size := 4, kind := .read } s = .next { s with rdata := some s.dev.arg } ∧
    busAccess { addr := s.base + 0x10, size := 4, kind := .read } s = .next { s with rdata := some 0 } ∧
    busAccess { addr := s.base + 0x14, size := 4, kind := .read } s = .next { s with rdata := some s.dev.sin } ∧
    busAccess { addr := s.base + 0x18, size := 4, kind := .read } s = .next { s with rdata := some s.dev.cos } ∧
    busAccess { addr := s.base + 0x1C, size := 4, kind := .read } s = .next { s with rdata := some 0 }

/-- An access inside the window that is not a 4-byte access at a multiple of 4 is a bus error, read or write (R53, R54, R170).
That an access is inside by the address it starts at, also one that reaches past the window, is the model's (log entry 3). -/
def Obligations.RejectedAccessIsABusError : Prop :=
  ∀ (s : State) (addr size : Nat) (kind : AccessKind), s.rstN = true →
    s.base ≤ addr → addr ≤ s.base + 0x1F → size ≠ 4 ∨ addr % 4 ≠ 0 →
      busAccess { addr := addr, size := size, kind := kind } s = .fault (.busError addr)

/-- R51: the unit never sees an access outside the window, and nothing of it changes. That an access is outside by the address
it starts at, and that the host goes on after it, are the model's (log entry 3). -/
def Obligations.AccessOutsideTheWindowIsUnseen : Prop :=
  ∀ (s : State) (a : Access), s.rstN = true → a.addr < s.base ∨ s.base + 0x1F < a.addr →
    ∃ r : Option Word, busAccess a s = .next { s with rdata := r }

/-- Every admitted access on the host's turn answers a next state (R53, R56): no data, register or command word stops the
machine. That a write leaves no read data is the model's (log entry 4). -/
def Obligations.AdmittedAccessAnswers : Prop :=
  ∀ (s : State) (addr : Nat) (kind : AccessKind), s.rstN = true → s.mover = .host →
    addr % 4 = 0 → s.base ≤ addr → addr ≤ s.base + 0x1C →
      ∃ t, busAccess { addr := addr, size := 4, kind := kind } s = .next t ∧ t.window = s.window ∧ t.rstN = s.rstN ∧
        t.prog = s.prog ∧ t.vars = s.vars ∧ t.turns = s.turns ∧ ∀ v, kind = .write v → t.rdata = none

/-- R58: a write to ARG, to CTRL with bit 1 = 0, to ID, SIN, COS or 0x1C, done twice leaves what it left once; so does a STATUS
write. -/
def Obligations.WritesWithoutSideEffectsAreIdempotent : Prop :=
  ∀ (s : State) (v : Word) (off : Nat) (t : State), s.rstN = true → s.mover = .host →
    off = 0x00 ∨ (off = 0x04 ∧ v.getLsbD 1 = false) ∨ off = 0x08 ∨ off = 0x0C ∨ off = 0x14 ∨ off = 0x18 ∨ off = 0x1C →
    busAccess { addr := s.base + off, size := 4, kind := .write v } s = .next t →
      busAccess { addr := t.base + off, size := 4, kind := .write v } t = .next t

/-! ## Reset and interrupt -/

/-- The state after reset (R36): every register and latch 0, ESTATE IDLE, `irq` 0, and the slots read as R20's reset column. -/
def Obligations.ResetValues : Prop :=
  State.reset.dev =
    { ie := false, done := false, errIllop := false, errRsvd := false, errOvr := false, errRange := false
      lastop := 0, arg := 0, sin := 0, cos := 0, estate := .idle, oplatch := 0, opnd := 0
      cx := 0, cy := 0, cz := 0, ci := 0, remain := 0 } ∧
  State.reset.dev.irq = false ∧
  State.reset.dev.readReg .id = 0x43524401#32 ∧
  State.reset.dev.readReg .ctrl = 0 ∧ State.reset.dev.readReg .status = 0 ∧ State.reset.dev.readReg .arg = 0 ∧
  State.reset.dev.readReg .cmd = 0 ∧ State.reset.dev.readReg .sin = 0 ∧ State.reset.dev.readReg .cos = 0 ∧
  State.reset.dev.readReg .rsv1c = 0

/-- R191: a CTRL write with bit 1 = 1 sets, in the same step, every piece of the unit's state to its value of R36; a command in
progress is abandoned and `irq` falls. -/
def Obligations.SoftResetRestoresResetValues : Prop :=
  ∀ (s : State) (v : Word), s.rstN = true → s.mover = .host → v.getLsbD 1 = true →
    ∃ (t : State) (r : Option Word), busAccess { addr := s.base + 0x04, size := 4, kind := .write v } s = .next t ∧
      t = { s with rdata := r, dev :=
        { ie := false, done := false, errIllop := false, errRsvd := false, errOvr := false, errRange := false
          lastop := 0, arg := 0, sin := 0, cos := 0, estate := .idle, oplatch := 0, opnd := 0
          cx := 0, cy := 0, cz := 0, ci := 0, remain := 0 } } ∧
      t.dev.irq = false

/-- Hardware reset (R190): asserting `rst_n`, and releasing it after that, leave the unit at its reset values, whatever runs; a
sample that finds it released as before changes nothing of the unit. While it is asserted every step that answers leaves the
unit at its reset values, so no command completes, and there is no host step: a bus access is refused, as
93_implementation_defined.md says (log entry 5). -/
def Obligations.HardwareResetHoldsTheUnit : Prop :=
  (∀ s : State, s.mover = .rst true →
    step s = .next { s with dev := Device.reset, rstN := false, turns := s.turns.tail }) ∧
  (∀ s : State, s.mover = .rst false →
    step s = .next { s with
      dev := if s.rstN = true then s.dev else Device.reset, rstN := true, turns := s.turns.tail }) ∧
  (∀ s t : State, s.rstN = false → step s = .next t → t.dev = Device.reset) ∧
  (∀ s : State, s.rstN = false → s.mover = .host → step s = .refused .hostStepInReset) ∧
  (∀ (s : State) (a : Access), s.rstN = false → busAccess a s = .refused .hostStepInReset)

/-- The interrupt line (R167, R203): `irq` is IE AND DONE, so it is 0 after DONE is cleared by a STATUS write, after IE is
cleared, and after a command is accepted; a rejected command raises it when IE = 1, and a dropped one leaves it. -/
def Obligations.InterruptLevel : Prop :=
  ∀ (d : Device) (v : Word) (op : BitVec 4) (f : ErrFlag),
    (d.irq = true ↔ d.ie = true ∧ d.done = true) ∧
    (v.getLsbD 1 = true → (d.writeStatus v).irq = false) ∧
    (v.getLsbD 0 = false → (d.writeCtrl v).irq = false) ∧
    (d.estate = .idle → (d.present op none).irq = false) ∧
    (d.estate = .idle → (d.present op (some f)).irq = d.ie) ∧
    (d.estate = .run → (d.present op (some f)).irq = d.irq ∧ (d.present op none).irq = d.irq)

/-! ## Invariants and whole-machine rules -/

/-- The state after reset meets the invariant. -/
def Obligations.ResetMeetsInvariant : Prop := State.reset.Inv

/-- From every state that meets the invariant, a step that answers a next state gives one that meets it, whoever moves (R34, R121,
R162 to R166, R190; for the engine's vector R102, R103; for the cycles R210). That no cycle is left while idle (REMAIN = 0) and
that CX, CY, CZ and CI follow the cycles of FSINCOS is the model's choice (log entry 8), that `rst_n` is a level is log entry 5,
and the canonical form of the host's variables is the model's (log entry 11). -/
def Obligations.StepKeepsInvariant : Prop :=
  ∀ s t : State, s.Inv → step s = .next t → t.Inv

/-- R165: after every step from a state that meets the invariant DONE and BUSY are not both 1, in the flags and in the STATUS
word read. -/
def Obligations.BusyAndDoneNeverTogether : Prop :=
  ∀ s t : State, s.Inv → step s = .next t →
    ¬(t.dev.busy = true ∧ t.dev.done = true) ∧
    ¬(t.dev.statusWord.getLsbD 0 = true ∧ t.dev.statusWord.getLsbD 1 = true)

/-- A safe state steps on (R105 (e), R166 "It cannot fail", R169): neither a command, nor a completion, nor an error flag, nor
any value of the host's stops the machine; only a bus error and a host step in reset (log entry 5) do. That the host goes on
after an access outside the window is the model's (log entry 3). -/
def Obligations.SafeStateStepsOn : Prop :=
  ∀ s : State, s.safe → ∃ t, step s = .next t

/-- Sticky errors (R24, R204): an error bit is cleared only by a STATUS write of 1 to it or a reset; no command clears it. -/
def Obligations.ErrorBitsAreSticky : Prop :=
  ∀ (s t : State) (f : ErrFlag), step s = .next t → s.dev.err f = true → t.dev.err f = false →
    s.resets ∨ ∃ v, s.hostWrites .status v ∧ v.getLsbD f.bit = true

/-- An error bit is set only by a CMD write, and only under its condition of R160. -/
def Obligations.ErrorBitsAreSetOnlyByCommandWrites : Prop :=
  ∀ (s t : State) (f : ErrFlag), step s = .next t → s.dev.err f = false → t.dev.err f = true →
    ∃ w, s.hostWrites .cmd w ∧
      match f with
      | .ovr => s.dev.estate = .run
      | .illop => s.dev.estate = .idle ∧ 4 ≤ w.toNat % 16
      | .rsvd => s.dev.estate = .idle ∧ w.toNat % 16 < 4 ∧ w.toNat / 16 ≠ 0
      | .range => s.dev.estate = .idle ∧ w.toNat = 3 ∧ romInRange s.dev.arg = false

/-- SIN and COS change only at a completion or a reset (R27, R28, R200): while a command runs they keep the previous pair. -/
def Obligations.ResultsChangeOnlyAtCompletionOrReset : Prop :=
  ∀ s t : State, step s = .next t → t.dev.sin ≠ s.dev.sin ∨ t.dev.cos ≠ s.dev.cos → s.resets ∨ s.completes

/-- BUSY (R24): set only by the acceptance of a well-formed command word, cleared only by completion or reset. -/
def Obligations.BusyChangesOnlyAsStated : Prop :=
  ∀ s t : State, step s = .next t →
    (s.dev.busy = false → t.dev.busy = true → ∃ w, s.hostWrites .cmd w ∧ w.toNat < 4) ∧
    (s.dev.busy = true → t.dev.busy = false → s.resets ∨ s.completes)

/-- DONE (R24, R165): set only by completion or a rejected CMD write, cleared only by an accepted CMD write, a STATUS write of 1
to it, or reset. -/
def Obligations.DoneChangesOnlyAsStated : Prop :=
  ∀ s t : State, step s = .next t →
    (s.dev.done = false → t.dev.done = true →
      s.completes ∨ ∃ w, s.hostWrites .cmd w ∧ s.dev.estate = .idle ∧ t.dev.estate = .idle) ∧
    (s.dev.done = true → t.dev.done = false →
      s.resets ∨ (∃ v, s.hostWrites .status v ∧ v.getLsbD 1 = true) ∨
        ∃ w, s.hostWrites .cmd w ∧ s.dev.estate = .idle ∧ t.dev.estate = .run)

/-- LASTOP (R24) changes only by a CMD write that is not dropped, and then holds its OP field, or by reset; ARG (R25) only by an
ARG write, and then holds its data, or by reset; IE (R23) only by a CTRL write, or by reset. -/
def Obligations.LastopArgAndIeChangeOnlyAsStated : Prop :=
  ∀ s t : State, step s = .next t →
    (t.dev.lastop ≠ s.dev.lastop →
      s.resets ∨ ∃ w, s.hostWrites .cmd w ∧ s.dev.estate = .idle ∧ t.dev.lastop = w.extractLsb' 0 4) ∧
    (t.dev.arg ≠ s.dev.arg → s.resets ∨ s.hostWrites .arg t.dev.arg) ∧
    (t.dev.ie ≠ s.dev.ie → s.resets ∨ ∃ v, s.hostWrites .ctrl v ∧ t.dev.ie = v.getLsbD 0)

/-- What a command's meaning leaves unchanged when it answers a next state (R163, R166): the pins, BASE, the host and the
interleaving; IE, ARG, ERR_ILLOP and ERR_RSVD; when presented, SIN, COS and the CORDIC vector; when completing or clocked, the
latches, LASTOP and every error bit; the CORDIC vector but for FSINCOS; SIN and COS for NOP. -/
def Obligations.CommandFrame : Prop :=
  ∀ (i : Instr) (s t : State), exec i s = .next t →
    t = { s with dev := t.dev } ∧
    t.dev.ie = s.dev.ie ∧ t.dev.arg = s.dev.arg ∧ t.dev.errIllop = s.dev.errIllop ∧ t.dev.errRsvd = s.dev.errRsvd ∧
    (s.mover = .host →
      t.dev.sin = s.dev.sin ∧ t.dev.cos = s.dev.cos ∧ t.dev.vec = s.dev.vec ∧ t.dev.ci = s.dev.ci) ∧
    (s.mover ≠ .host →
      t.dev.oplatch = s.dev.oplatch ∧ t.dev.opnd = s.dev.opnd ∧ t.dev.lastop = s.dev.lastop ∧
        t.dev.errOvr = s.dev.errOvr ∧ t.dev.errRange = s.dev.errRange) ∧
    (i ≠ .fsincos → t.dev.vec = s.dev.vec ∧ t.dev.ci = s.dev.ci) ∧
    (i ≠ .romrd → t.dev.errRange = s.dev.errRange) ∧
    (i = .nop → t.dev.sin = s.dev.sin ∧ t.dev.cos = s.dev.cos)

/-- No step changes BASE (R50: a platform parameter), and only the reset pin's turn changes `rst_n`. -/
def Obligations.StepKeepsPlatform : Prop :=
  ∀ s t : State, step s = .next t →
    t.window = s.window ∧ ((∀ b, s.mover ≠ .rst b) → t.rstN = s.rstN) ∧ t.turns = s.turns.tail

/-! ## Results and interleavings -/

/-- R6, R100: the results depend on the command and its operand alone: two machines that complete the same command on the same
operand, whatever else differs, end with the same SIN and COS (NOP writes none). -/
def Obligations.ResultsDependOnlyOnCommandAndOperand : Prop :=
  ∀ s s' t t' : State, s.completes → s'.completes → s.dev.oplatch = s'.dev.oplatch → s.dev.opnd = s'.dev.opnd →
    s.dev.oplatch ≠ 0 → step s = .next t → step s' = .next t' →
      t.dev.sin = t'.dev.sin ∧ t.dev.cos = t'.dev.cos

/-- No ARG hazard (R25, R202): an ARG write while the command runs, before or after its completion, leaves the same state. -/
def Obligations.ArgWriteCommutesWithCompletion : Prop :=
  ∀ (s : State) (v : Word) (i : Instr), s.mover = .engine ∨ s.mover = .clock →
    exec i (s.mapDev (Device.writeArg v)) = onNext (State.mapDev (Device.writeArg v)) (exec i s)

/-- The two readings of R166 agree: from every sound state with a command running, letting the clock run the REMAIN cycles that
are left ends in the very state that one completion step gives. And the inner cycles have then done the work themselves: in a
sound state whose running FSINCOS has only the write-back left, CX, CY and CZ hold the vector after all 31 rotations and CI is
31 (R102, R103, R210). What CX, CY, CZ, CI and REMAIN hold in between and after is the model's (log entry 8). -/
def Obligations.ClockedRunEqualsOneCompletion : Prop :=
  (∀ (s : State) (ts : List Turn), s.Inv → s.rstN = true → s.dev.estate = .run →
    Host.Core.run Sys2Proof.core s.dev.remain
        { s with turns := List.replicate s.dev.remain .clock ++ ts } =
      step { s with turns := .engine :: ts }) ∧
  (∀ s : State, s.Inv → s.dev.estate = .run → s.dev.oplatch = 1 → s.dev.remain = 1 →
    { x := s.dev.cx, y := s.dev.cy, z := s.dev.cz : Vec } = cordicVec s.dev.opnd ∧ s.dev.ci.val = 31)

/-! ## The host's own computation -/

/-- LET, FOR and IF of R77, and a host that is done: each is one step without a bus access, so the unit, its pins and the read
data stay. LET sets its variable to the expression's value. FOR with its first bound at most its last sets the variable to the
first bound and goes on with the body and then the loop from the next value, and else goes past it. IF goes on with the body
exactly when its condition holds. That FOR's bounds are expressions evaluated on entry is the model's (log entry 19), and so is
the count of evaluations (log entry 16). -/
def Obligations.HostComputationSteps : Prop :=
  ∀ (s : State) (k : HostProg), s.rstN = true → s.mover = .host →
    (s.prog = .done → step s = .next { s with turns := s.turns.tail }) ∧
    (∀ (x : HostVar) (e : HostExpr), s.prog = .assign x e k →
      ∃ vs, step s = .next { s with prog := k, vars := vs, draws := s.draws + 1, turns := s.turns.tail } ∧
        lookupVar x vs = some (s.value e) ∧ ∀ y, y ≠ x → lookupVar y vs = lookupVar y s.vars) ∧
    (∀ (x : HostVar) (a b : HostExpr) (body : HostProg), s.prog = .loop x a b body k → s.value a ≤ s.value b →
      ∃ vs, step s = .next { s with
          prog := body.append (.loop x (.lit (s.value a + 1)) (.lit (s.value b)) body k)
          vars := vs, draws := s.draws + 1, turns := s.turns.tail } ∧
        lookupVar x vs = some (s.value a) ∧ ∀ y, y ≠ x → lookupVar y vs = lookupVar y s.vars) ∧
    (∀ (x : HostVar) (a b : HostExpr) (body : HostProg), s.prog = .loop x a b body k → s.value b < s.value a →
      step s = .next { s with prog := k, draws := s.draws + 1, turns := s.turns.tail }) ∧
    (∀ (c : HostCond) (body : HostProg), s.prog = .cond c body k →
      step s = .next { s with
        prog := if s.holds c = true then body.append k else k, draws := s.draws + 1, turns := s.turns.tail })
end

