-- ==== Sys2Proof/Laws/Cordic.lean ====
section
/-! SUPPORT. Small facts about the numeric functions: the constants as numbers, the table's bound, and what one rotation does
to the angle. They keep later proofs from computing with the constants. -/

namespace Sys2Proof.Machine

theorem qtr_toNat : qtr.toNat = 0x3FFFFFFF := by decide +kernel

theorem qtr3_toNat : qtr3.toNat = 0xBFFFFFFD := by decide +kernel

theorem cordicGain_toInt : cordicGain.toInt = -1304065735 := by decide +kernel

theorem neg_cordicGain_toInt : (-cordicGain).toInt = 1304065735 := by decide +kernel

/-- The comparison of R103 by value. -/
theorem qtr_le (z : Word) : qtr ≤ z ↔ 0x3FFFFFFF ≤ z.toNat := by rw [BitVec.le_def, qtr_toNat]

theorem lt_qtr (z : Word) : z < qtr ↔ z.toNat < 0x3FFFFFFF := by rw [BitVec.lt_def, qtr_toNat]

theorem lt_qtr3 (z : Word) : z < qtr3 ↔ z.toNat < 0xBFFFFFFD := by rw [BitVec.lt_def, qtr3_toNat]

/-- No table entry exceeds the first (R31). -/
theorem atanRom_le (i : Fin 31) : (atanRom[i.val]).toNat ≤ 0x1FFFFFFF := by
  revert i; decide +kernel

/-- A step within the table rotates by its entry (R103). -/
theorem rotateStep_of_lt {i : Nat} (h : i < 31) (v : Vec) : rotateStep i v = rotateBy i atanRom[i] v := by
  unfold rotateStep
  rw [Vector.getElem?_eq_getElem h]

theorem rotateBy_z (i : Nat) (a : Word) (v : Vec) :
    (rotateBy i a v).z = if qtr ≤ v.z then v.z - a else v.z + a := by
  unfold rotateBy
  split <;> rfl

/-- The arithmetic shift is the floor of the division (R10). -/
theorem sshiftRight_toInt (v : Word) (i : Nat) : (v.sshiftRight i).toInt = v.toInt / 2 ^ i := by
  rw [BitVec.toInt_sshiftRight, Int.shiftRight_eq_div_pow]
  norm_cast

/-- `s32` is the balanced remainder (R10). -/
theorem refS32_eq_bmod (x : Int) : refS32 x = Int.bmod x (2 ^ 32) := by
  unfold refS32
  rw [Int.bmod_def]
  norm_num
  split <;> omega

end Sys2Proof.Machine
end

