-- ==== Sys2Proof/Laws/NoWrap.lean ====
section
/-! SUPPORT. No addition of the CORDIC rotation wraps, for any phase (40_trig_ops.md R103, 00_scope.md R12): the bit vectors
follow the same recursion on unbounded integers. -/

-- One proof after another: later `decide +kernel` proofs then wait for none of these in a thread of their own.
set_option Elab.async false

namespace Sys2Proof.Machine

/-- ATAN_ROM[i] as an integer, 0 past the table. -/
def atanInt (i : Nat) : Int := ((atanRom[i]?).getD 0).toNat

/-- One rotation of R103 on integers, without the wrap of R12. -/
def exactRotate (i : Nat) (v : RefVec) : RefVec :=
  if 1073741823 ≤ v.z then { x := v.x - v.y / 2 ^ i, y := v.y + v.x / 2 ^ i, z := v.z - atanInt i }
  else { x := v.x + v.y / 2 ^ i, y := v.y - v.x / 2 ^ i, z := v.z + atanInt i }

/-- `k` rotations from step `i` on, without the wrap. -/
def exactFrom : Nat → Nat → RefVec → RefVec
  | 0, _, v => v
  | k + 1, i, v => exactFrom k (i + 1) (exactRotate i v)

/-- The components are s32 values, with a little room. -/
def RefVec.fits (v : RefVec) : Prop := v.x.natAbs < 2 ^ 31 ∧ v.y.natAbs < 2 ^ 31

theorem exactFrom_succ (k i : Nat) (v : RefVec) : exactFrom (k + 1) i v = exactRotate (i + k) (exactFrom k i v) := by
  induction k generalizing i v with
  | zero => rfl
  | succ k ih =>
    show exactFrom (k + 1) (i + 1) (exactRotate i v) = _
    rw [ih, show i + 1 + k = i + (k + 1) by omega]
    rfl

/-- A bound on the sizes that `k` more steps from `i` can reach stays below 2^31: each step adds at most the other size's
shift and 1. -/
def sizesFit : Nat → Nat → Nat → Nat → Bool
  | 0, _, a, b => decide (a < 2 ^ 31) && decide (b < 2 ^ 31)
  | k + 1, i, a, b =>
    decide (a < 2 ^ 31) && decide (b < 2 ^ 31) && sizesFit k (i + 1) (a + b / 2 ^ i + 1) (b + a / 2 ^ i + 1)

/-- From (x, y) at step `i`, with z - QTR anywhere in [lo, hi], `k` more steps fit: by the bound on sizes, or in both
directions of the next step. -/
def branchFits : Nat → Nat → Int → Int → Int → Int → Bool
  | 0, _, x, y, lo, hi => decide (hi < lo) || sizesFit 0 0 x.natAbs y.natAbs
  | k + 1, i, x, y, lo, hi =>
    decide (hi < lo) ||
      (decide (x.natAbs < 2 ^ 31) && decide (y.natAbs < 2 ^ 31) &&
        (sizesFit (k + 1) i x.natAbs y.natAbs ||
          (branchFits k (i + 1) (x - y / 2 ^ i) (y + x / 2 ^ i) (max lo 0 - atanInt i) (hi - atanInt i) &&
            branchFits k (i + 1) (x + y / 2 ^ i) (y - x / 2 ^ i) (lo + atanInt i) (min hi (-1) + atanInt i))))

/-- A floor shift of a number has at most its size's shift and 1. -/
theorem natAbs_shift_le (y : Int) (i : Nat) : (y / 2 ^ i).natAbs ≤ y.natAbs / 2 ^ i + 1 := by
  have hp : (0 : Int) < 2 ^ i := by positivity
  have hq : (y.natAbs / 2 ^ i : Nat) = (y.natAbs : Int) / 2 ^ i := by push_cast; rfl
  generalize hm : (2 : Int) ^ i = m at *
  have h1 := Int.mul_ediv_add_emod y m
  have h2 := Int.emod_nonneg y hp.ne'
  have h3 := Int.emod_lt_of_pos y hp
  have h4 := Int.mul_ediv_add_emod (y.natAbs : Int) m
  have h5 := Int.emod_nonneg (y.natAbs : Int) hp.ne'
  have h6 := Int.emod_lt_of_pos (y.natAbs : Int) hp
  rcases le_total 0 y with hy | hy
  · rw [Int.natAbs_of_nonneg hy] at hq
    have : 0 ≤ y / m := Int.ediv_nonneg hy hp.le
    omega
  · have hn : (y.natAbs : Int) = -y := by omega
    rw [hn] at hq h4 h5 h6
    have h7 : y / m ≤ 0 := by
      by_contra hc
      nlinarith
    have h8 : -(y / m) ≤ -y / m + 1 := by
      by_contra hc
      nlinarith
    omega

theorem exactRotate_natAbs (i : Nat) (v : RefVec) :
    (exactRotate i v).x.natAbs ≤ v.x.natAbs + v.y.natAbs / 2 ^ i + 1 ∧
    (exactRotate i v).y.natAbs ≤ v.y.natAbs + v.x.natAbs / 2 ^ i + 1 := by
  have hx := natAbs_shift_le v.x i
  have hy := natAbs_shift_le v.y i
  unfold exactRotate
  split <;> constructor <;> simp only <;> omega

theorem sizesFit_mono {k i a b a' b' : Nat} (ha : a' ≤ a) (hb : b' ≤ b) (h : sizesFit k i a b = true) :
    sizesFit k i a' b' = true := by
  induction k generalizing i a b a' b' with
  | zero => simp only [sizesFit, Bool.and_eq_true, decide_eq_true_eq] at h ⊢; omega
  | succ k ih =>
    simp only [sizesFit, Bool.and_eq_true, decide_eq_true_eq] at h ⊢
    have h1 := Nat.div_le_div_right (c := 2 ^ i) ha
    have h2 := Nat.div_le_div_right (c := 2 ^ i) hb
    exact ⟨by omega, ih (by omega) (by omega) h.2⟩

theorem fits_of_sizesFit {k i : Nat} {v : RefVec} (h : sizesFit k i v.x.natAbs v.y.natAbs = true) :
    ∀ m ≤ k, (exactFrom m i v).fits := by
  induction k generalizing i v with
  | zero =>
    intro m hm
    obtain rfl : m = 0 := by omega
    simpa [sizesFit, RefVec.fits, exactFrom] using h
  | succ k ih =>
    simp only [sizesFit, Bool.and_eq_true, decide_eq_true_eq] at h
    rintro (_ | m) hm
    · exact h.1
    · obtain ⟨h1, h2⟩ := exactRotate_natAbs i v
      exact ih (sizesFit_mono h1 h2 h.2) m (by omega)

theorem fits_of_branchFits {k i : Nat} {v : RefVec} {lo hi : Int} (h : branchFits k i v.x v.y lo hi = true)
    (h1 : lo ≤ v.z - 1073741823) (h2 : v.z - 1073741823 ≤ hi) : ∀ m ≤ k, (exactFrom m i v).fits := by
  induction k generalizing i v lo hi with
  | zero =>
    simp only [branchFits, Bool.or_eq_true, decide_eq_true_eq] at h
    exact fits_of_sizesFit (h.resolve_left (by omega))
  | succ k ih =>
    simp only [branchFits, Bool.or_eq_true, Bool.and_eq_true, decide_eq_true_eq] at h
    obtain ⟨h3, h | ⟨h4, h5⟩⟩ := h.resolve_left (by omega)
    · exact fits_of_sizesFit h
    · rintro (_ | m) hm
      · exact h3
      · show (exactFrom m (i + 1) (exactRotate i v)).fits
        by_cases hz : 1073741823 ≤ v.z
        · rw [exactRotate, if_pos hz]
          exact ih h4 (by simp only; omega) (by simp only; omega) m (by omega)
        · rw [exactRotate, if_neg hz]
          exact ih h5 (by simp only; omega) (by simp only; omega) m (by omega)

/-- A CORDIC vector as integers: x and y s32, z u32. -/
def Vec.toRef (v : Vec) : RefVec := { x := v.x.toInt, y := v.y.toInt, z := v.z.toNat }

/-- The normalised phase by the three branches of R102: start vector, z and the phase, with z - QTR the angle to turn. -/
theorem normalise_cases (p : Word) :
    (p.toNat < 0x3FFFFFFF ∧ (normalise p).toRef = { x := 1304065735, y := 0, z := p.toNat + 0x3FFFFFFF }) ∨
    (0x3FFFFFFF ≤ p.toNat ∧ p.toNat < 0xBFFFFFFD ∧
      (normalise p).toRef = { x := -1304065735, y := 0, z := p.toNat - 0x3FFFFFFF }) ∨
    (0xBFFFFFFD ≤ p.toNat ∧ (normalise p).toRef = { x := 1304065735, y := 0, z := p.toNat - 0xBFFFFFFD }) := by
  have hp := p.isLt
  have toRef_eq : ∀ (x z : Word) (a c : Int), x.toInt = a → (z.toNat : Int) = c →
      ({ x := x, y := 0, z := z } : Vec).toRef = { x := a, y := 0, z := c } := by
    rintro x z _ _ rfl rfl
    simp [Vec.toRef]
  unfold normalise
  by_cases h1 : p < qtr
  · rw [if_pos h1]
    rw [lt_qtr] at h1
    exact .inl ⟨h1, toRef_eq _ _ _ _ neg_cordicGain_toInt (by rw [BitVec.toNat_add, qtr_toNat]; omega)⟩
  · rw [if_neg h1]
    rw [lt_qtr] at h1
    by_cases h2 : p < qtr3
    · rw [if_pos h2]
      rw [lt_qtr3] at h2
      exact .inr (.inl ⟨by omega, h2, toRef_eq _ _ _ _ cordicGain_toInt (by rw [BitVec.toNat_sub, qtr_toNat]; omega)⟩)
    · rw [if_neg h2]
      rw [lt_qtr3] at h2
      exact .inr (.inr ⟨by omega, toRef_eq _ _ _ _ neg_cordicGain_toInt (by rw [BitVec.toNat_sub, qtr3_toNat]; omega)⟩)

theorem branch_right : branchFits 31 0 1304065735 0 (-0x3FFFFFFF) 0x3FFFFFFE = true := by decide +kernel

theorem branch_left : branchFits 31 0 (-1304065735) 0 (-0x3FFFFFFF) 0x3FFFFFFE = true := by decide +kernel

/-- Every vector of every phase fits: on unbounded integers no component reaches 2^31. -/
theorem exactFrom_fits (p : Word) : ∀ n ≤ 31, (exactFrom n 0 (normalise p).toRef).fits := by
  have hp := p.isLt
  rcases normalise_cases p with ⟨h, hn⟩ | ⟨h, h', hn⟩ | ⟨h, hn⟩ <;> rw [hn]
  · exact fits_of_branchFits branch_right (by simp only; omega) (by simp only; omega)
  · exact fits_of_branchFits branch_left (by simp only; omega) (by simp only; omega)
  · exact fits_of_branchFits branch_right (by simp only; omega) (by simp only; omega)

theorem bmod_of_natAbs_lt {x : Int} (h : x.natAbs < 2 ^ 31) : Int.bmod x (2 ^ 32) = x := by
  rw [← refS32_eq_bmod, refS32]; omega

/-- One rotation of the bit vectors is the exact one, when the exact one fits (R12, R103). -/
theorem rotateStep_toRef {i : Nat} (hi : i < 31) {v : Vec} (h : (exactRotate i v.toRef).fits) :
    (rotateStep i v).toRef = exactRotate i v.toRef := by
  have ha : atanInt i = (atanRom[i]).toNat := by simp [atanInt, Vector.getElem?_eq_getElem hi]
  have hle := atanRom_le ⟨i, hi⟩
  simp only at hle
  have hz := v.z.isLt
  rw [rotateStep_of_lt hi]
  unfold exactRotate RefVec.fits at *
  rw [ha] at *
  generalize atanRom[i] = a at *
  unfold rotateBy
  by_cases hc : qtr ≤ v.z
  · have hc' := (qtr_le _).1 hc
    rw [if_pos hc]
    rw [if_pos (show (1073741823 : Int) ≤ v.toRef.z by simp only [Vec.toRef]; omega)] at h ⊢
    simp only [Vec.toRef, BitVec.toInt_sub, BitVec.toInt_add, sshiftRight_toInt, BitVec.toNat_sub, RefVec.mk.injEq] at h ⊢
    exact ⟨bmod_of_natAbs_lt h.1, bmod_of_natAbs_lt h.2, by omega⟩
  · have hc' : ¬ 0x3FFFFFFF ≤ v.z.toNat := by rwa [← qtr_le]
    rw [if_neg hc]
    rw [if_neg (show ¬ (1073741823 : Int) ≤ v.toRef.z by simp only [Vec.toRef]; omega)] at h ⊢
    simp only [Vec.toRef, BitVec.toInt_sub, BitVec.toInt_add, sshiftRight_toInt, BitVec.toNat_add, RefVec.mk.injEq] at h ⊢
    exact ⟨bmod_of_natAbs_lt h.1, bmod_of_natAbs_lt h.2, by omega⟩

/-- No wrap for any phase: the bit vectors hold the integers of the exact recursion after every step (R103). -/
theorem rotations_toRef (p : Word) (n : Nat) (hn : n ≤ 31) :
    (rotations n (normalise p)).toRef = exactFrom n 0 (normalise p).toRef := by
  induction n with
  | zero => rfl
  | succ n ih =>
    have hf := exactFrom_fits p (n + 1) hn
    rw [exactFrom_succ, Nat.zero_add, ← ih (by omega)] at hf ⊢
    exact rotateStep_toRef (by omega) hf

end Sys2Proof.Machine
end

