-- ==== Sys2Proof/Laws/AtanTable.lean ====
section
/-! SUPPORT. The arctangent table against the arctangent (10_state.md R31): each entry is below atan(2^-i) in phase units by at
most a stated part of a unit. -/

-- One proof after another: later `decide +kernel` proofs then wait for none of these in a thread of their own.
set_option Elab.async false

namespace Sys2Proof.Machine

/-- The first `n` terms of the arctangent series. -/
def atanSum {K : Type} [Field K] (x : K) : Nat → K
  | 0 => 0
  | n + 1 => atanSum x n + (-1) ^ n * x ^ (2 * n + 1) / (2 * n + 1)

theorem atanSum_cast (q : ℚ) (n : Nat) : ((atanSum q n : ℚ) : ℝ) = atanSum (q : ℝ) n := by
  induction n with
  | zero => simp [atanSum]
  | succ n ih => simp [atanSum, ih]

/-- The rest of the series after `n` terms has the derivative (-1)^n x^(2n) / (1 + x^2). -/
theorem hasDerivAt_rest (n : Nat) (x : ℝ) :
    HasDerivAt (fun x => Real.arctan x - atanSum x n) ((-1) ^ n * x ^ (2 * n) / (1 + x ^ 2)) x := by
  induction n with
  | zero => simpa [atanSum] using Real.hasDerivAt_arctan x
  | succ n ih =>
    have hpow : HasDerivAt (fun x : ℝ => (-1) ^ n * x ^ (2 * n + 1) / (2 * n + 1)) ((-1) ^ n * x ^ (2 * n)) x := by
      have h := ((hasDerivAt_pow (2 * n + 1) x).const_mul ((-1 : ℝ) ^ n)).div_const (2 * (n : ℝ) + 1)
      have h0 : (2 * (n : ℝ) + 1) ≠ 0 := by positivity
      refine h.congr_deriv ?_
      push_cast
      field_simp
    refine ((ih.sub hpow).congr_deriv ?_).congr_of_eventuallyEq (.of_forall fun y => ?_)
    · have h1 : (1 + x ^ 2) ≠ 0 := by positivity
      field_simp
      ring
    · simp only [atanSum, Pi.sub_apply]
      ring

/-- The series alternates: its even sums are below the arctangent of a non-negative number, and its odd ones above. -/
theorem atanSum_alternates (n : Nat) {x : ℝ} (hx : 0 ≤ x) : 0 ≤ (-1) ^ n * (Real.arctan x - atanSum x n) := by
  have hmono : MonotoneOn (fun x => (-1) ^ n * (Real.arctan x - atanSum x n)) (Set.Ici 0) := by
    have hd := fun y => (hasDerivAt_rest n y).const_mul ((-1 : ℝ) ^ n)
    refine monotoneOn_of_deriv_nonneg (convex_Ici 0) (fun y _ => (hd y).continuousAt.continuousWithinAt)
      (fun y _ => (hd y).differentiableAt.differentiableWithinAt) fun y _ => ?_
    rw [(hd y).deriv, ← mul_div_assoc, ← mul_assoc, ← pow_add, ← two_mul, Even.neg_one_pow (even_two_mul n), one_mul]
    exact div_nonneg (Even.pow_nonneg (even_two_mul n) y) (by positivity)
  have h := hmono (Set.mem_Ici.2 le_rfl) (Set.mem_Ici.2 hx) hx
  have h0 : atanSum (0 : ℝ) n = 0 := by
    clear hmono h
    induction n with
    | zero => rfl
    | succ n ih => simp [atanSum, ih]
  simpa [h0] using h

/-- atan(2^-i) in phase units of 2 pi / 2^32 (R31). -/
noncomputable def atanUnits (i : Nat) : ℝ := Real.arctan (1 / 2 ^ i) * 2 ^ 32 / (2 * Real.pi)

/-- How far below atan(2^-i) entry `i` may lie, in 1/10000 of a phase unit. -/
def deficit (i : Nat) : Nat :=
  (([10000, 6172, 3709, 1169, 563, 3480, 3602, 699, 2769, 7315, 25,
    809, 505, 266, 5136, 7569, 3786, 1894, 5948, 7975, 8989, 9496, 9749, 4876, 7439, 3721, 1862, 932, 5467, 2735, 6369] : List Nat)[i]?).getD 0

/-- An even number of terms of the series that decides entry `i`. -/
def terms (i : Nat) : Nat := if i ≤ 2 then 18 else 8

theorem terms_even (i : Nat) : Even (terms i) := by unfold terms; split <;> decide

/-- The table's check on rationals, with an even and an odd number of terms of the series and pi between two decimals. -/
def entryChecks (i : Nat) : Bool :=
  decide ((atanInt i : ℚ) * (2 * 3.14159265358979323847) ≤ atanSum (1 / 2 ^ i : ℚ) (terms i) * 2 ^ 32 ∧
    atanSum (1 / 2 ^ i : ℚ) (terms i + 1) * 2 ^ 32 ≤ ((atanInt i : ℚ) + deficit i / 10000) * (2 * 3.14159265358979323846))

theorem entries_check : ∀ i : Fin 31, i.val ≠ 0 → entryChecks i.val = true := by decide +kernel

/-- Each entry of ATAN_ROM is at most atan(2^-i) in phase units, and by no more than its deficit below it (R31). -/
theorem atanInt_bounds {i : Nat} (hi : i < 31) :
    (atanInt i : ℝ) ≤ atanUnits i ∧ atanUnits i ≤ atanInt i + deficit i / 10000 := by
  have hpi := Real.pi_pos
  unfold atanUnits
  rw [le_div_iff₀ (by positivity), div_le_iff₀ (by positivity)]
  by_cases h0 : i = 0
  · subst h0
    have h1 : atanInt 0 = 536870911 := by decide +kernel
    have h2 : deficit 0 = 10000 := by decide +kernel
    rw [h1, h2, pow_zero, div_one, Real.arctan_one]
    constructor <;> push_cast <;> nlinarith
  · have h := entries_check ⟨i, hi⟩ h0
    simp only [entryChecks, decide_eq_true_eq] at h
    obtain ⟨h1, h2⟩ := h
    have c1 := (Rat.cast_le (K := ℝ)).2 h1
    have c2 := (Rat.cast_le (K := ℝ)).2 h2
    push_cast [atanSum_cast] at c1 c2
    have hx : (0 : ℝ) ≤ 1 / 2 ^ i := by positivity
    have e1 := atanSum_alternates (terms i) hx
    have e2 := atanSum_alternates (terms i + 1) hx
    have heven := terms_even i
    generalize terms i = n at *
    generalize (1 / 2 ^ i : ℝ) = x at *
    have ha : (0 : ℝ) ≤ atanInt i := by unfold atanInt; positivity
    have hd : (0 : ℝ) ≤ deficit i / 10000 := by positivity
    have p1 : (314159265358979323846 / 100000000000000000000 : ℝ) < Real.pi := by linarith [Real.pi_gt_d20]
    have p2 : Real.pi < (314159265358979323847 / 100000000000000000000 : ℝ) := by linarith [Real.pi_lt_d20]
    rw [Even.neg_one_pow heven, one_mul, sub_nonneg] at e1
    rw [Odd.neg_one_pow heven.add_one] at e2
    constructor
    · have := mul_le_mul_of_nonneg_left p2.le ha
      linarith
    · have := mul_le_mul_of_nonneg_left p1.le (add_nonneg ha hd)
      linarith

end Sys2Proof.Machine
end

