-- ==== Sys2Proof/Laws/Accuracy.lean ====
section
/-! SUPPORT. The accuracy of FSINCOS for every phase (40_trig_ops.md R106): the vector after the 31 rotations is the start vector
scaled by the gain and turned by the angles of the steps, up to the roundings; the turned angle is the phase up to a few units. -/

-- One proof after another: later `decide +kernel` proofs then wait for none of these in a thread of their own.
set_option Elab.async false

namespace Sys2Proof.Machine

/-- A vector of integers as a complex number x + y i. -/
noncomputable def RefVec.toComplex (v : RefVec) : ℂ := ⟨v.x, v.y⟩

/-- The direction of the rotation made from `v`: 1 counter-clockwise, -1 clockwise (R103). -/
noncomputable def RefVec.direction (v : RefVec) : ℝ := if 1073741823 ≤ v.z then 1 else -1

theorem direction_cases (v : RefVec) :
    (1073741823 ≤ v.z ∧ v.direction = 1) ∨ (v.z ≤ 1073741822 ∧ v.direction = -1) := by
  unfold RefVec.direction
  split
  · exact .inl ⟨by assumption, rfl⟩
  · exact .inr ⟨by omega, rfl⟩

/-- The angle turned in the first `n` steps from `v`, in phase units. -/
noncomputable def turned (v : RefVec) : Nat → ℝ
  | 0 => 0
  | n + 1 => turned v n + (exactFrom n 0 v).direction * atanUnits n

theorem exactFrom_zero_succ (n : Nat) (v : RefVec) : exactFrom (n + 1) 0 v = exactRotate n (exactFrom n 0 v) := by
  rw [exactFrom_succ, Nat.zero_add]

/-! ## The angle -/

/-- The table's accumulated deficit after `n` steps, in 1/10000 of a phase unit. -/
def deficitSum : Nat → Nat
  | 0 => 0
  | n + 1 => deficitSum n + deficit n

theorem deficitSum_last : deficitSum 31 = 135026 := by decide +kernel

/-- The angle left in the accumulator z and the angle still to turn differ by the table's deficits. -/
theorem turned_drift (v : RefVec) (n : Nat) (hn : n ≤ 31) :
    |(v.z - turned v n) - (exactFrom n 0 v).z| ≤ deficitSum n / 10000 := by
  induction n with
  | zero => simp [turned, exactFrom, deficitSum]
  | succ n ih =>
    obtain ⟨b1, b2⟩ := atanInt_bounds (i := n) (by omega)
    have ih := ih (by omega)
    rw [abs_le] at ih ⊢
    simp only [turned, deficitSum, exactFrom_zero_succ]
    push_cast
    rcases direction_cases (exactFrom n 0 v) with ⟨hz, hd⟩ | ⟨hz, hd⟩
    · rw [hd, exactRotate, if_pos hz]
      push_cast
      constructor <;> linarith
    · rw [hd, exactRotate, if_neg (by omega)]
      push_cast
      constructor <;> linarith

theorem atanUnits_zero : atanUnits 0 = 2 ^ 29 := by
  have := Real.pi_pos
  rw [atanUnits, pow_zero, div_one, Real.arctan_one]
  field_simp
  norm_num

/-- Each angle of the table is at most twice the next. -/
theorem atanUnits_le_double (n : Nat) : atanUnits n ≤ 2 * atanUnits (n + 1) := by
  have hx : (0 : ℝ) < 1 / 2 ^ (n + 1) := by positivity
  have hx1 : (1 / 2 ^ (n + 1) : ℝ) < 1 := by
    rw [div_lt_one (by positivity)]
    exact one_lt_pow₀ (by norm_num) (by omega)
  have h : Real.arctan (1 / 2 ^ n) ≤ 2 * Real.arctan (1 / 2 ^ (n + 1)) := by
    rw [Real.two_mul_arctan (by linarith) hx1, Real.arctan_le_arctan_iff]
    have e : (1 / 2 ^ n : ℝ) = 2 * (1 / 2 ^ (n + 1)) := by rw [pow_succ]; field_simp
    rw [e]
    exact le_div_self (by linarith) (by nlinarith) (by nlinarith)
  unfold atanUnits
  have := Real.pi_pos
  rw [← mul_div_assoc, ← mul_assoc]
  gcongr

/-- The angle still to turn after `n + 1` steps is at most the last step's, the deficits and one unit. -/
theorem turned_residual (v : RefVec) (h1 : 0 ≤ v.z) (h2 : v.z ≤ 0x7FFFFFFE) (n : Nat) (hn : n < 31) :
    |(v.z - turned v (n + 1)) - 1073741823| ≤ atanUnits n + deficitSum (n + 1) / 10000 + 1 := by
  have drift := turned_drift v n hn.le
  have hdef : (0 : ℝ) ≤ deficit n := by positivity
  rw [abs_le] at drift ⊢
  rw [turned, deficitSum]
  have bounds : |(v.z - turned v n) - 1073741823| ≤ 2 * atanUnits n + deficitSum n / 10000 + 1 := by
    rw [abs_le]
    cases n with
    | zero =>
      have h1' : (0 : ℝ) ≤ v.z := by exact_mod_cast h1
      have h2' : (v.z : ℝ) ≤ 0x7FFFFFFE := by exact_mod_cast h2
      rw [atanUnits_zero, turned, deficitSum]
      constructor <;> push_cast <;> linarith
    | succ n =>
      have ih := turned_residual v h1 h2 n (by omega)
      have := atanUnits_le_double n
      rw [abs_le] at ih
      constructor <;> linarith [ih.1, ih.2]
  rw [abs_le] at bounds
  push_cast
  rcases direction_cases (exactFrom n 0 v) with ⟨hz, hd⟩ | ⟨hz, hd⟩
  · have hz' : (1073741823 : ℝ) ≤ (exactFrom n 0 v).z := by exact_mod_cast hz
    rw [hd]
    constructor <;> linarith [bounds.1, bounds.2, drift.1, drift.2]
  · have hz' : ((exactFrom n 0 v).z : ℝ) ≤ 1073741822 := by exact_mod_cast hz
    rw [hd]
    constructor <;> linarith [bounds.1, bounds.2, drift.1, drift.2]

/-! ## The vector -/

/-- The angle of a phase unit. -/
noncomputable def unitAngle : ℝ := 2 * Real.pi / 2 ^ 32

theorem unitAngle_mul_atanUnits (n : Nat) : unitAngle * atanUnits n = Real.arctan (1 / 2 ^ n) := by
  have := Real.pi_pos
  unfold unitAngle atanUnits
  field_simp

/-- The growth of a vector's length in step `n`. -/
noncomputable def growth (n : Nat) : ℝ := √(1 + (1 / 2 ^ n) ^ 2)

/-- The growth in the first `n` steps. -/
noncomputable def gain : Nat → ℝ
  | 0 => 1
  | n + 1 => gain n * growth n

/-- The square of the gain, as a fraction. -/
def gainNum : Nat → Nat
  | 0 => 1
  | n + 1 => gainNum n * (4 ^ n + 1)

/-- The fraction's denominator. -/
def gainDen : Nat → Nat
  | 0 => 1
  | n + 1 => gainDen n * 4 ^ n

theorem two_pow_sq (n : Nat) : ((2 : ℝ) ^ n) ^ 2 = 4 ^ n := by rw [← pow_mul, mul_comm, pow_mul]; norm_num

theorem gain_sq (n : Nat) : gain n ^ 2 * gainDen n = gainNum n := by
  induction n with
  | zero => simp [gain, gainNum, gainDen]
  | succ n ih =>
    rw [gain, mul_pow, growth, Real.sq_sqrt (by positivity), gainNum, gainDen, div_pow, one_pow, two_pow_sq]
    push_cast
    rw [← ih]
    field_simp

theorem growth_pos (n : Nat) : 0 < growth n := Real.sqrt_pos.2 (by positivity)

theorem gain_pos (n : Nat) : 0 < gain n := by
  induction n with
  | zero => simp [gain]
  | succ n ih =>
    exact mul_pos ih (growth_pos n)

theorem growth_le (n : Nat) : growth n ≤ 1 + 1 / (2 * 4 ^ n) := by
  unfold growth
  rw [Real.sqrt_le_left (by positivity), div_pow, one_pow, two_pow_sq]
  have h4 : (0 : ℝ) < 4 ^ n := by positivity
  have : (1 + 1 / (2 * 4 ^ n) : ℝ) ^ 2 = 1 + 1 / 4 ^ n + (1 / (2 * 4 ^ n)) ^ 2 := by field_simp; ring
  rw [this]
  have := sq_nonneg (1 / (2 * 4 ^ n) : ℝ)
  linarith

/-- The unrounded step turns by atan(t) and grows by the length of 1 + t i. -/
theorem step_factor (t : ℝ) {d : ℝ} (hd : d = 1 ∨ d = -1) :
    (1 + d * t * Complex.I : ℂ) = (√(1 + t ^ 2) : ℝ) * Complex.exp ((d * Real.arctan t : ℝ) * Complex.I) := by
  have h0 : √(1 + t ^ 2) ≠ 0 := (Real.sqrt_pos.2 (by positivity)).ne'
  apply Complex.ext
  · rw [Complex.re_ofReal_mul, Complex.exp_ofReal_mul_I_re]
    have : Real.cos (d * Real.arctan t) = Real.cos (Real.arctan t) := by rcases hd with rfl | rfl <;> simp
    rw [this, Real.cos_arctan]
    simp [h0]
  · rw [Complex.im_ofReal_mul, Complex.exp_ofReal_mul_I_im]
    have : Real.sin (d * Real.arctan t) = d * Real.sin (Real.arctan t) := by rcases hd with rfl | rfl <;> simp
    rw [this, Real.sin_arctan]
    field_simp
    simp [mul_comm]

/-- The part that the floor shift cuts off. -/
noncomputable def cutOff (n : Nat) (y : Int) : ℝ := y * (1 / 2 ^ n) - (y / 2 ^ n : Int)

theorem cutOff_zero (y : Int) : cutOff 0 y = 0 := by simp [cutOff]

theorem cutOff_bounds (n : Nat) (y : Int) : 0 ≤ cutOff n y ∧ cutOff n y ≤ 1 := by
  have hp : (0 : ℝ) < 2 ^ n := by positivity
  have h1 : ((2 ^ n * (y / 2 ^ n) : Int) : ℝ) ≤ ((y : Int) : ℝ) := by
    exact_mod_cast Int.mul_ediv_self_le (by positivity)
  have h2 : ((y : Int) : ℝ) ≤ ((2 ^ n * (y / 2 ^ n) + 2 ^ n : Int) : ℝ) := by
    exact_mod_cast (Int.lt_mul_ediv_self_add (x := y) (show (0 : Int) < 2 ^ n by positivity)).le
  push_cast at h1 h2
  rw [cutOff, mul_one_div]
  constructor
  · rw [sub_nonneg, le_div_iff₀ hp]; linarith
  · rw [sub_le_iff_le_add, div_le_iff₀ hp]; linarith

/-- A bound on the rounding of step `n`: the first step shifts by 0 and rounds nothing. -/
noncomputable def stepError (n : Nat) : ℝ := if n = 0 then 0 else 1.41422

theorem exactRotate_error (n : Nat) (v : RefVec) :
    ‖(exactRotate n v).toComplex - v.toComplex * (1 + v.direction * (1 / 2 ^ n : ℝ) * Complex.I)‖ ≤ stepError n := by
  have key : (exactRotate n v).toComplex - v.toComplex * (1 + v.direction * (1 / 2 ^ n : ℝ) * Complex.I) =
      ⟨v.direction * cutOff n v.y, -(v.direction * cutOff n v.x)⟩ := by
    simp only [cutOff]
    generalize (1 / 2 ^ n : ℝ) = t
    rcases direction_cases v with ⟨hz, hd⟩ | ⟨hz, hd⟩
    · rw [hd, exactRotate, if_pos hz]
      apply Complex.ext <;> simp [RefVec.toComplex]
      ring_nf
    · rw [hd, exactRotate, if_neg (by omega)]
      apply Complex.ext <;> simp [RefVec.toComplex]
      ring_nf
  have hd : v.direction ^ 2 = 1 := by rcases direction_cases v with ⟨-, hd⟩ | ⟨-, hd⟩ <;> simp [hd]
  rw [key]
  by_cases h0 : n = 0
  · subst h0
    simp [cutOff_zero, stepError, Complex.norm_def, Complex.normSq_mk]
  · obtain ⟨a1, a2⟩ := cutOff_bounds n v.x
    obtain ⟨b1, b2⟩ := cutOff_bounds n v.y
    refine abs_le_of_sq_le_sq' ?_ ?_ |>.2
    · rw [Complex.sq_norm, Complex.normSq_mk, stepError, if_neg h0]
      have e : v.direction * cutOff n v.y * (v.direction * cutOff n v.y) +
          -(v.direction * cutOff n v.x) * -(v.direction * cutOff n v.x) = cutOff n v.y ^ 2 + cutOff n v.x ^ 2 := by
        linear_combination (cutOff n v.y ^ 2 + cutOff n v.x ^ 2) * hd
      rw [e]
      nlinarith
    · rw [stepError, if_neg h0]; norm_num

theorem four_mul_le_pow : ∀ n : Nat, 4 * n ≤ 4 ^ n
  | 0 => by norm_num
  | 1 => by norm_num
  | n + 2 => by have := four_mul_le_pow (n + 1); rw [pow_succ]; omega

/-- The rounding after one more step: what was rounded before grows with the vector, by little. -/
theorem error_grows (n : Nat) :
    stepError n + 1.47 * ((n - 1 : Nat) : ℝ) * (1 + 1 / (2 * 4 ^ n)) ≤ 1.47 * ((n + 1 - 1 : Nat) : ℝ) := by
  cases n with
  | zero => simp [stepError]
  | succ n =>
    have h : (4 * n : ℝ) ≤ 4 ^ n := by exact_mod_cast four_mul_le_pow n
    have h2 : (n : ℝ) * (1 / (2 * 4 ^ (n + 1))) ≤ 1 / 32 := by
      rw [mul_one_div, div_le_div_iff₀ (by positivity) (by norm_num), pow_succ]
      linarith
    rw [stepError, if_neg (by omega), Nat.add_sub_cancel, Nat.add_sub_cancel]
    push_cast
    linarith

/-- The vector after `n` steps is the start vector grown by the gain and turned by the angles, up to the roundings. -/
theorem exactFrom_error (n : Nat) (v : RefVec) :
    ‖(exactFrom n 0 v).toComplex - v.toComplex * gain n * Complex.exp ((unitAngle * turned v n : ℝ) * Complex.I)‖ ≤
      1.47 * ((n - 1 : Nat) : ℝ) := by
  induction n with
  | zero => simp [exactFrom, gain, turned]
  | succ n ih =>
    have hdir : (exactFrom n 0 v).direction = 1 ∨ (exactFrom n 0 v).direction = -1 := by
      rcases direction_cases (exactFrom n 0 v) with ⟨-, hd⟩ | ⟨-, hd⟩ <;> simp [hd]
    have hstep := exactRotate_error n (exactFrom n 0 v)
    have hfac := step_factor (1 / 2 ^ n) hdir
    rw [← growth, ← unitAngle_mul_atanUnits] at hfac
    have hgrow : ‖(1 + (exactFrom n 0 v).direction * (1 / 2 ^ n : ℝ) * Complex.I : ℂ)‖ = growth n := by
      rw [hfac, norm_mul, Complex.norm_exp_ofReal_mul_I, mul_one, Complex.norm_real, Real.norm_of_nonneg (growth_pos n).le]
    have hturn : v.toComplex * gain (n + 1) * Complex.exp ((unitAngle * turned v (n + 1) : ℝ) * Complex.I) =
        v.toComplex * gain n * Complex.exp ((unitAngle * turned v n : ℝ) * Complex.I) *
          (1 + (exactFrom n 0 v).direction * (1 / 2 ^ n : ℝ) * Complex.I) := by
      rw [hfac, gain, turned, mul_add, Complex.ofReal_add, add_mul, Complex.exp_add]
      push_cast
      ring_nf
    rw [hturn, exactFrom_zero_succ]
    calc _ = ‖((exactRotate n (exactFrom n 0 v)).toComplex - (exactFrom n 0 v).toComplex *
            (1 + (exactFrom n 0 v).direction * (1 / 2 ^ n : ℝ) * Complex.I)) +
          ((exactFrom n 0 v).toComplex - v.toComplex * gain n * Complex.exp ((unitAngle * turned v n : ℝ) * Complex.I)) *
            (1 + (exactFrom n 0 v).direction * (1 / 2 ^ n : ℝ) * Complex.I)‖ := by push_cast; ring_nf
      _ ≤ _ := norm_add_le _ _
      _ ≤ stepError n + 1.47 * ((n - 1 : Nat) : ℝ) * (1 + 1 / (2 * 4 ^ n)) := by
        rw [norm_mul, hgrow]
        exact add_le_add hstep (mul_le_mul ih (growth_le n) (growth_pos n).le (by positivity))
      _ ≤ _ := error_grows n

/-- The gain constant scales the gain of the 31 steps to 2^31, from below. -/
theorem gain_last : 2 ^ 31 - 22 ≤ 1304065735 * gain 31 ∧ 1304065735 * gain 31 ≤ 2 ^ 31 := by
  have h1 : (2 ^ 31 - 22) ^ 2 * gainDen 31 ≤ 1304065735 ^ 2 * gainNum 31 ∧
      1304065735 ^ 2 * gainNum 31 ≤ (2 ^ 31) ^ 2 * gainDen 31 := by decide +kernel
  have hd : (0 : ℝ) < gainDen 31 := by
    have : 0 < gainDen 31 := by decide +kernel
    exact_mod_cast this
  have h2 := (Nat.cast_le (α := ℝ)).2 h1.1
  have h3 := (Nat.cast_le (α := ℝ)).2 h1.2
  push_cast [← gain_sq] at h2 h3
  rw [← mul_assoc] at h2 h3
  have hlow := le_of_mul_le_mul_right h2 hd
  have hup := le_of_mul_le_mul_right h3 hd
  have := gain_pos 31
  exact ⟨(abs_le_of_sq_le_sq' (by rw [mul_pow]; linarith) (by positivity)).2,
    (abs_le_of_sq_le_sq' (by rw [mul_pow]; linarith) (by positivity)).2⟩

/-! ## The guarantee -/

/-- A vector within 45 of a turned start vector lies, componentwise and in its squared length, as close to the unit circle of
radius 2^31 as R106 asks, if the angle it was turned by is off by at most 19.2 phase units. -/
theorem near_circle {w : RefVec} {g a b : ℝ} (hg : 2 ^ 31 - 22 ≤ g ∧ g ≤ 2 ^ 31)
    (hw : ‖w.toComplex - g * Complex.exp ((b : ℝ) * Complex.I)‖ ≤ 45) (hab : |b - a| ≤ 19.2 * unitAngle) :
    |(w.y : ℝ) - 2 ^ 31 * Real.sin a| ≤ 128 ∧ |(w.x : ℝ) - 2 ^ 31 * Real.cos a| ≤ 128 ∧
    |w.y ^ 2 + w.x ^ 2 - 2 ^ 62| ≤ 2 ^ 40 := by
  have hturn : ‖Complex.exp ((b : ℝ) * Complex.I) - Complex.exp ((a : ℝ) * Complex.I)‖ ≤ 19.2 * unitAngle := by
    have e : Complex.exp ((b : ℝ) * Complex.I) - Complex.exp ((a : ℝ) * Complex.I) =
        Complex.exp ((a : ℝ) * Complex.I) * (Complex.exp (Complex.I * (b - a : ℝ)) - 1) := by
      rw [mul_sub, mul_one, ← Complex.exp_add]
      push_cast
      ring_nf
    rw [e, norm_mul, Complex.norm_exp_ofReal_mul_I, one_mul]
    exact (Real.norm_exp_I_mul_ofReal_sub_one_le).trans hab
  have hclose : ‖w.toComplex - (2 ^ 31 : ℝ) * Complex.exp ((a : ℝ) * Complex.I)‖ ≤ 128 := by
    have e : w.toComplex - (2 ^ 31 : ℝ) * Complex.exp ((a : ℝ) * Complex.I) =
        (w.toComplex - g * Complex.exp ((b : ℝ) * Complex.I)) + ((g - 2 ^ 31 : ℝ) * Complex.exp ((b : ℝ) * Complex.I) +
          (2 ^ 31 : ℝ) * (Complex.exp ((b : ℝ) * Complex.I) - Complex.exp ((a : ℝ) * Complex.I))) := by
      push_cast
      ring
    have hgain : ‖((g - 2 ^ 31 : ℝ) * Complex.exp ((b : ℝ) * Complex.I) : ℂ)‖ ≤ 22 := by
      rw [norm_mul, Complex.norm_exp_ofReal_mul_I, mul_one, Complex.norm_real, Real.norm_eq_abs, abs_le]
      constructor <;> linarith [hg.1, hg.2]
    have hscale : ‖((2 ^ 31 : ℝ) * (Complex.exp ((b : ℝ) * Complex.I) - Complex.exp ((a : ℝ) * Complex.I)) : ℂ)‖ ≤ 121 / 2 := by
      rw [norm_mul, Complex.norm_real, Real.norm_of_nonneg (by positivity)]
      unfold unitAngle at hturn
      nlinarith [Real.pi_lt_d2]
    rw [e]
    exact (norm_add_le_of_le hw (norm_add_le_of_le hgain hscale)).trans (by norm_num)
  have hnorm : |‖w.toComplex‖ - g| ≤ 45 := by
    have e : ‖(g * Complex.exp ((b : ℝ) * Complex.I) : ℂ)‖ = g := by
      rw [norm_mul, Complex.norm_exp_ofReal_mul_I, mul_one, Complex.norm_real, Real.norm_of_nonneg (by linarith [hg.1])]
    have h := (abs_norm_sub_norm_le w.toComplex (g * Complex.exp ((b : ℝ) * Complex.I))).trans hw
    rwa [e] at h
  refine ⟨?_, ?_, ?_⟩
  · have h := (Complex.abs_im_le_norm _).trans hclose
    rwa [Complex.sub_im, Complex.im_ofReal_mul, Complex.exp_ofReal_mul_I_im] at h
  · have h := (Complex.abs_re_le_norm _).trans hclose
    rwa [Complex.sub_re, Complex.re_ofReal_mul, Complex.exp_ofReal_mul_I_re] at h
  · have hsq : ((w.y ^ 2 + w.x ^ 2 : Int) : ℝ) = ‖w.toComplex‖ ^ 2 := by
      rw [Complex.sq_norm, RefVec.toComplex, Complex.normSq_mk]
      push_cast
      ring
    rw [abs_le] at hnorm
    have : |((w.y ^ 2 + w.x ^ 2 : Int) : ℝ) - 2 ^ 62| ≤ 2 ^ 40 := by
      rw [hsq, abs_le]
      constructor <;> nlinarith [hg.1, hg.2, hnorm.1, hnorm.2, norm_nonneg w.toComplex]
    exact_mod_cast this

/-- The angle that the 31 steps turn is the angle to turn, z - QTR, within 15.2 phase units. -/
theorem turned_close {v : RefVec} (h1 : 0 ≤ v.z) (h2 : v.z ≤ 0x7FFFFFFE) :
    |(v.z - turned v 31) - 1073741823| ≤ 15.2 := by
  have h := turned_residual v h1 h2 30 (by norm_num)
  have ha := (atanInt_bounds (i := 30) (by norm_num)).2
  have e : atanInt 30 = 0 ∧ deficit 30 = 6369 := by decide +kernel
  rw [deficitSum_last] at h
  rw [e.1, e.2] at ha
  push_cast at h ha
  linarith

/-- The 31 steps from a start vector of the gain's length, at the angle 0 or pi. -/
theorem exactFrom_near_circle {v : RefVec} {k p : ℝ} (h1 : 0 ≤ v.z) (h2 : v.z ≤ 0x7FFFFFFE)
    (hv : v.toComplex = 1304065735 * Complex.exp ((unitAngle * (p + k - (v.z - 1073741823)) : ℝ) * Complex.I))
    (hk : 0 ≤ k ∧ k ≤ 4) :
    |((exactFrom 31 0 v).y : ℝ) - 2 ^ 31 * Real.sin (unitAngle * p)| ≤ 128 ∧
    |((exactFrom 31 0 v).x : ℝ) - 2 ^ 31 * Real.cos (unitAngle * p)| ≤ 128 ∧
    |(exactFrom 31 0 v).y ^ 2 + (exactFrom 31 0 v).x ^ 2 - 2 ^ 62| ≤ 2 ^ 40 := by
  have hclose := abs_le.1 (turned_close h1 h2)
  have hu : 0 < unitAngle := by unfold unitAngle; positivity
  have herr := (exactFrom_error 31 v).trans (show _ ≤ (45 : ℝ) by norm_num)
  refine near_circle (g := 1304065735 * gain 31) (b := unitAngle * (p + k - (v.z - 1073741823) + turned v 31)) gain_last ?_ ?_
  · have e : ((1304065735 * gain 31 : ℝ) : ℂ) *
        Complex.exp ((unitAngle * (p + k - (v.z - 1073741823) + turned v 31) : ℝ) * Complex.I) =
          v.toComplex * gain 31 * Complex.exp ((unitAngle * turned v 31 : ℝ) * Complex.I) := by
      rw [hv, mul_add unitAngle, Complex.ofReal_add, add_mul, Complex.exp_add]
      push_cast
      ring
    rw [e]
    exact herr
  · rw [← mul_sub, abs_mul, abs_of_pos hu, mul_comm]
    refine mul_le_mul_of_nonneg_right ?_ hu.le
    rw [abs_le]
    constructor <;> linarith [hclose.1, hclose.2]

/-- R106 holds of the model's function, for every phase. -/
theorem cordic_meetsAccuracy (p : Word) : meetsAccuracy p (cordic p) := by
  have hp := p.isLt
  have hc : (cordicVec p).toRef = exactFrom 31 0 (normalise p).toRef := by
    unfold cordicVec
    exact rotations_toRef p 31 le_rfl
  have hy : (cordic p).1.toInt = (exactFrom 31 0 (normalise p).toRef).y := congrArg RefVec.y hc
  have hx : (cordic p).2.toInt = (exactFrom 31 0 (normalise p).toRef).x := congrArg RefVec.x hc
  unfold meetsAccuracy
  rw [hy, hx, show 2 * Real.pi * p.toNat / 2 ^ 32 = unitAngle * p.toNat by unfold unitAngle; ring]
  have exp_start : ∀ a : ℝ, Complex.exp ((unitAngle * a : ℝ) * Complex.I) =
      Complex.exp (a / 2 ^ 31 * (Real.pi * Complex.I)) := by
    intro a
    congr 1
    unfold unitAngle
    push_cast
    ring
  rcases normalise_cases p with ⟨h, hn⟩ | ⟨h, h', hn⟩ | ⟨h, hn⟩ <;> rw [hn]
  · refine exactFrom_near_circle (k := 0) (by simp only; omega) (by simp only; omega) ?_ (by norm_num)
    rw [show (p.toNat + 0 - (((p.toNat + 0x3FFFFFFF : Int) : ℝ) - 1073741823) : ℝ) = 0 by push_cast; ring]
    simp [RefVec.toComplex, Complex.ext_iff]
  · refine exactFrom_near_circle (k := 2) (by simp only; omega) (by simp only; omega) ?_ (by norm_num)
    rw [show (p.toNat + 2 - (((p.toNat - 0x3FFFFFFF : Int) : ℝ) - 1073741823) : ℝ) = 2 ^ 31 by push_cast; ring, exp_start]
    simp [RefVec.toComplex, Complex.ext_iff]
  · refine exactFrom_near_circle (k := 4) (by simp only; omega) (by simp only; omega) ?_ (by norm_num)
    rw [show (p.toNat + 4 - (((p.toNat - 0xBFFFFFFD : Int) : ℝ) - 1073741823) : ℝ) = 2 * 2 ^ 31 by push_cast; ring, exp_start]
    have e : (((2 * 2 ^ 31 : ℝ) : ℂ) / 2 ^ 31 * (Real.pi * Complex.I)) = 2 * Real.pi * Complex.I := by push_cast; ring
    rw [e, Complex.exp_two_pi_mul_I]
    simp [RefVec.toComplex, Complex.ext_iff]

/-- What FSINCOS leaves in SIN and COS keeps R106's guarantee for its operand. -/
theorem fsincosResult_meetsAccuracy (d : Device) :
    meetsAccuracy (phaseOf d.opnd) ((fsincosResult d).sin, (fsincosResult d).cos) := cordic_meetsAccuracy _

end Sys2Proof.Machine
end

