-- ==== Sys2Proof/Laws/PerInstr.lean ====
section
/-! SUPPORT. The encoded form of each command: its word carries the opcode of 30_encoding.md R71 and zero reserved bits. -/

namespace Sys2Proof.Laws.EncodedForm

/-- The command's word is well formed, carries its opcode in OP and zero in RSVD, and its opcode selects it. -/
def Statement (i : Instr) : Prop :=
  i.wellFormed = true ∧ wellFormedWord (encode i) = true ∧ opField (encode i) = opcodeOf i ∧ rsvdField (encode i) = 0 ∧
    instrOfOp (opcodeOf i) = some i

theorem nop : Statement .nop := by unfold Statement; decide
theorem fsincos : Statement .fsincos := by unfold Statement; decide
theorem sin64rot : Statement .sin64rot := by unfold Statement; decide
theorem romrd : Statement .romrd := by unfold Statement; decide

end Sys2Proof.Laws.EncodedForm
end

