-- ==== Sys2Proof/Laws/State.lean ====
section
/-! SUPPORT. What each update of the state does to each field, one lemma per field per update, all true by unfolding. -/

namespace Sys2Proof.Machine

section
variable (s : State) (f : Device → Device) (b : Bool) (k : HostProg)

@[simp] theorem mapDev_dev : (s.mapDev f).dev = f s.dev := rfl
@[simp] theorem mapDev_rstN : (s.mapDev f).rstN = s.rstN := rfl
@[simp] theorem mapDev_rdata : (s.mapDev f).rdata = s.rdata := rfl
@[simp] theorem mapDev_window : (s.mapDev f).window = s.window := rfl
@[simp] theorem mapDev_prog : (s.mapDev f).prog = s.prog := rfl
@[simp] theorem mapDev_vars : (s.mapDev f).vars = s.vars := rfl
@[simp] theorem mapDev_draws : (s.mapDev f).draws = s.draws := rfl
@[simp] theorem mapDev_turns : (s.mapDev f).turns = s.turns := rfl
@[simp] theorem popTurn_dev : s.popTurn.dev = s.dev := rfl
@[simp] theorem popTurn_rstN : s.popTurn.rstN = s.rstN := rfl
@[simp] theorem popTurn_rdata : s.popTurn.rdata = s.rdata := rfl
@[simp] theorem popTurn_window : s.popTurn.window = s.window := rfl
@[simp] theorem popTurn_prog : s.popTurn.prog = s.prog := rfl
@[simp] theorem popTurn_vars : s.popTurn.vars = s.vars := rfl
@[simp] theorem popTurn_draws : s.popTurn.draws = s.draws := rfl
@[simp] theorem popTurn_turns : s.popTurn.turns = s.turns.tail := rfl
@[simp] theorem rstPin_dev : (s.rstPin b).dev = if !b && s.rstN then s.dev else Device.reset := rfl
@[simp] theorem rstPin_rstN : (s.rstPin b).rstN = !b := rfl
@[simp] theorem rstPin_rdata : (s.rstPin b).rdata = s.rdata := rfl
@[simp] theorem rstPin_window : (s.rstPin b).window = s.window := rfl
@[simp] theorem rstPin_prog : (s.rstPin b).prog = s.prog := rfl
@[simp] theorem rstPin_vars : (s.rstPin b).vars = s.vars := rfl
@[simp] theorem rstPin_draws : (s.rstPin b).draws = s.draws := rfl
@[simp] theorem rstPin_turns : (s.rstPin b).turns = s.turns := rfl
@[simp] theorem holdReset_rstN : s.holdReset.rstN = s.rstN := by unfold State.holdReset; split <;> rfl
@[simp] theorem holdReset_rdata : s.holdReset.rdata = s.rdata := by unfold State.holdReset; split <;> rfl
@[simp] theorem holdReset_window : s.holdReset.window = s.window := by unfold State.holdReset; split <;> rfl
@[simp] theorem holdReset_prog : s.holdReset.prog = s.prog := by unfold State.holdReset; split <;> rfl
@[simp] theorem holdReset_vars : s.holdReset.vars = s.vars := by unfold State.holdReset; split <;> rfl
@[simp] theorem holdReset_draws : s.holdReset.draws = s.draws := by unfold State.holdReset; split <;> rfl
@[simp] theorem holdReset_turns : s.holdReset.turns = s.turns := by unfold State.holdReset; split <;> rfl

@[simp] theorem goOn_dev : (s.goOn k).dev = s.dev := rfl
@[simp] theorem goOn_rstN : (s.goOn k).rstN = s.rstN := rfl
@[simp] theorem goOn_rdata : (s.goOn k).rdata = s.rdata := rfl
@[simp] theorem goOn_window : (s.goOn k).window = s.window := rfl
@[simp] theorem goOn_prog : (s.goOn k).prog = k := rfl
@[simp] theorem goOn_vars : (s.goOn k).vars = s.vars := rfl
@[simp] theorem goOn_draws : (s.goOn k).draws = s.draws + 1 := rfl
@[simp] theorem goOn_turns : (s.goOn k).turns = s.turns := rfl

theorem holdReset_of_released (h : s.rstN = true) : s.holdReset = s := by simp [State.holdReset, h]

theorem holdReset_of_asserted (h : s.rstN = false) : s.holdReset = { s with dev := Device.reset } := by
  simp [State.holdReset, h]

end

section
variable (d : Device) (op : BitVec 4) (e : ErrFlag) (v : Word) (w : Word) (u : Vec) (i : Fin 32)

@[simp] theorem accept_ie : (d.accept op).ie = d.ie := rfl
@[simp] theorem accept_done : (d.accept op).done = false := rfl
@[simp] theorem accept_errIllop : (d.accept op).errIllop = d.errIllop := rfl
@[simp] theorem accept_errRsvd : (d.accept op).errRsvd = d.errRsvd := rfl
@[simp] theorem accept_errOvr : (d.accept op).errOvr = d.errOvr := rfl
@[simp] theorem accept_errRange : (d.accept op).errRange = d.errRange := rfl
@[simp] theorem accept_lastop : (d.accept op).lastop = op := rfl
@[simp] theorem accept_arg : (d.accept op).arg = d.arg := rfl
@[simp] theorem accept_sin : (d.accept op).sin = d.sin := rfl
@[simp] theorem accept_cos : (d.accept op).cos = d.cos := rfl
@[simp] theorem accept_estate : (d.accept op).estate = .run := rfl
@[simp] theorem accept_oplatch : (d.accept op).oplatch = op := rfl
@[simp] theorem accept_opnd : (d.accept op).opnd = d.arg := rfl
@[simp] theorem accept_cx : (d.accept op).cx = d.cx := rfl
@[simp] theorem accept_cy : (d.accept op).cy = d.cy := rfl
@[simp] theorem accept_cz : (d.accept op).cz = d.cz := rfl
@[simp] theorem accept_ci : (d.accept op).ci = d.ci := rfl
@[simp] theorem accept_remain : (d.accept op).remain = latencyOf op := rfl

@[simp] theorem endCommand_ie : (d.endCommand).ie = d.ie := rfl
@[simp] theorem endCommand_done : (d.endCommand).done = true := rfl
@[simp] theorem endCommand_errIllop : (d.endCommand).errIllop = d.errIllop := rfl
@[simp] theorem endCommand_errRsvd : (d.endCommand).errRsvd = d.errRsvd := rfl
@[simp] theorem endCommand_errOvr : (d.endCommand).errOvr = d.errOvr := rfl
@[simp] theorem endCommand_errRange : (d.endCommand).errRange = d.errRange := rfl
@[simp] theorem endCommand_lastop : (d.endCommand).lastop = d.lastop := rfl
@[simp] theorem endCommand_arg : (d.endCommand).arg = d.arg := rfl
@[simp] theorem endCommand_sin : (d.endCommand).sin = d.sin := rfl
@[simp] theorem endCommand_cos : (d.endCommand).cos = d.cos := rfl
@[simp] theorem endCommand_estate : (d.endCommand).estate = .idle := rfl
@[simp] theorem endCommand_oplatch : (d.endCommand).oplatch = d.oplatch := rfl
@[simp] theorem endCommand_opnd : (d.endCommand).opnd = d.opnd := rfl
@[simp] theorem endCommand_cx : (d.endCommand).cx = d.cx := rfl
@[simp] theorem endCommand_cy : (d.endCommand).cy = d.cy := rfl
@[simp] theorem endCommand_cz : (d.endCommand).cz = d.cz := rfl
@[simp] theorem endCommand_ci : (d.endCommand).ci = d.ci := rfl
@[simp] theorem endCommand_remain : (d.endCommand).remain = 0 := rfl

@[simp] theorem writeResults_ie : (d.writeResults v w).ie = d.ie := rfl
@[simp] theorem writeResults_done : (d.writeResults v w).done = d.done := rfl
@[simp] theorem writeResults_errIllop : (d.writeResults v w).errIllop = d.errIllop := rfl
@[simp] theorem writeResults_errRsvd : (d.writeResults v w).errRsvd = d.errRsvd := rfl
@[simp] theorem writeResults_errOvr : (d.writeResults v w).errOvr = d.errOvr := rfl
@[simp] theorem writeResults_errRange : (d.writeResults v w).errRange = d.errRange := rfl
@[simp] theorem writeResults_lastop : (d.writeResults v w).lastop = d.lastop := rfl
@[simp] theorem writeResults_arg : (d.writeResults v w).arg = d.arg := rfl
@[simp] theorem writeResults_sin : (d.writeResults v w).sin = v := rfl
@[simp] theorem writeResults_cos : (d.writeResults v w).cos = w := rfl
@[simp] theorem writeResults_estate : (d.writeResults v w).estate = d.estate := rfl
@[simp] theorem writeResults_oplatch : (d.writeResults v w).oplatch = d.oplatch := rfl
@[simp] theorem writeResults_opnd : (d.writeResults v w).opnd = d.opnd := rfl
@[simp] theorem writeResults_cx : (d.writeResults v w).cx = d.cx := rfl
@[simp] theorem writeResults_cy : (d.writeResults v w).cy = d.cy := rfl
@[simp] theorem writeResults_cz : (d.writeResults v w).cz = d.cz := rfl
@[simp] theorem writeResults_ci : (d.writeResults v w).ci = d.ci := rfl
@[simp] theorem writeResults_remain : (d.writeResults v w).remain = d.remain := rfl

@[simp] theorem setVec_ie : (d.setVec u i).ie = d.ie := rfl
@[simp] theorem setVec_done : (d.setVec u i).done = d.done := rfl
@[simp] theorem setVec_errIllop : (d.setVec u i).errIllop = d.errIllop := rfl
@[simp] theorem setVec_errRsvd : (d.setVec u i).errRsvd = d.errRsvd := rfl
@[simp] theorem setVec_errOvr : (d.setVec u i).errOvr = d.errOvr := rfl
@[simp] theorem setVec_errRange : (d.setVec u i).errRange = d.errRange := rfl
@[simp] theorem setVec_lastop : (d.setVec u i).lastop = d.lastop := rfl
@[simp] theorem setVec_arg : (d.setVec u i).arg = d.arg := rfl
@[simp] theorem setVec_sin : (d.setVec u i).sin = d.sin := rfl
@[simp] theorem setVec_cos : (d.setVec u i).cos = d.cos := rfl
@[simp] theorem setVec_estate : (d.setVec u i).estate = d.estate := rfl
@[simp] theorem setVec_oplatch : (d.setVec u i).oplatch = d.oplatch := rfl
@[simp] theorem setVec_opnd : (d.setVec u i).opnd = d.opnd := rfl
@[simp] theorem setVec_cx : (d.setVec u i).cx = u.x := rfl
@[simp] theorem setVec_cy : (d.setVec u i).cy = u.y := rfl
@[simp] theorem setVec_cz : (d.setVec u i).cz = u.z := rfl
@[simp] theorem setVec_ci : (d.setVec u i).ci = i := rfl
@[simp] theorem setVec_remain : (d.setVec u i).remain = d.remain := rfl

@[simp] theorem clearW1C_ie : (d.clearW1C v).ie = d.ie := rfl
@[simp] theorem clearW1C_done : (d.clearW1C v).done = (d.done && !v.getLsbD 1) := rfl
@[simp] theorem clearW1C_errIllop : (d.clearW1C v).errIllop = (d.errIllop && !v.getLsbD 2) := rfl
@[simp] theorem clearW1C_errRsvd : (d.clearW1C v).errRsvd = (d.errRsvd && !v.getLsbD 3) := rfl
@[simp] theorem clearW1C_errOvr : (d.clearW1C v).errOvr = (d.errOvr && !v.getLsbD 4) := rfl
@[simp] theorem clearW1C_errRange : (d.clearW1C v).errRange = (d.errRange && !v.getLsbD 5) := rfl
@[simp] theorem clearW1C_lastop : (d.clearW1C v).lastop = d.lastop := rfl
@[simp] theorem clearW1C_arg : (d.clearW1C v).arg = d.arg := rfl
@[simp] theorem clearW1C_sin : (d.clearW1C v).sin = d.sin := rfl
@[simp] theorem clearW1C_cos : (d.clearW1C v).cos = d.cos := rfl
@[simp] theorem clearW1C_estate : (d.clearW1C v).estate = d.estate := rfl
@[simp] theorem clearW1C_oplatch : (d.clearW1C v).oplatch = d.oplatch := rfl
@[simp] theorem clearW1C_opnd : (d.clearW1C v).opnd = d.opnd := rfl
@[simp] theorem clearW1C_cx : (d.clearW1C v).cx = d.cx := rfl
@[simp] theorem clearW1C_cy : (d.clearW1C v).cy = d.cy := rfl
@[simp] theorem clearW1C_cz : (d.clearW1C v).cz = d.cz := rfl
@[simp] theorem clearW1C_ci : (d.clearW1C v).ci = d.ci := rfl
@[simp] theorem clearW1C_remain : (d.clearW1C v).remain = d.remain := rfl

@[simp] theorem writeArg_ie : (d.writeArg v).ie = d.ie := rfl
@[simp] theorem writeArg_done : (d.writeArg v).done = d.done := rfl
@[simp] theorem writeArg_errIllop : (d.writeArg v).errIllop = d.errIllop := rfl
@[simp] theorem writeArg_errRsvd : (d.writeArg v).errRsvd = d.errRsvd := rfl
@[simp] theorem writeArg_errOvr : (d.writeArg v).errOvr = d.errOvr := rfl
@[simp] theorem writeArg_errRange : (d.writeArg v).errRange = d.errRange := rfl
@[simp] theorem writeArg_lastop : (d.writeArg v).lastop = d.lastop := rfl
@[simp] theorem writeArg_arg : (d.writeArg v).arg = v := rfl
@[simp] theorem writeArg_sin : (d.writeArg v).sin = d.sin := rfl
@[simp] theorem writeArg_cos : (d.writeArg v).cos = d.cos := rfl
@[simp] theorem writeArg_estate : (d.writeArg v).estate = d.estate := rfl
@[simp] theorem writeArg_oplatch : (d.writeArg v).oplatch = d.oplatch := rfl
@[simp] theorem writeArg_opnd : (d.writeArg v).opnd = d.opnd := rfl
@[simp] theorem writeArg_cx : (d.writeArg v).cx = d.cx := rfl
@[simp] theorem writeArg_cy : (d.writeArg v).cy = d.cy := rfl
@[simp] theorem writeArg_cz : (d.writeArg v).cz = d.cz := rfl
@[simp] theorem writeArg_ci : (d.writeArg v).ci = d.ci := rfl
@[simp] theorem writeArg_remain : (d.writeArg v).remain = d.remain := rfl

@[simp] theorem setErr_ie : (d.setErr e).ie = d.ie := by cases e <;> rfl
@[simp] theorem setErr_done : (d.setErr e).done = d.done := by cases e <;> rfl
@[simp] theorem setErr_lastop : (d.setErr e).lastop = d.lastop := by cases e <;> rfl
@[simp] theorem setErr_arg : (d.setErr e).arg = d.arg := by cases e <;> rfl
@[simp] theorem setErr_sin : (d.setErr e).sin = d.sin := by cases e <;> rfl
@[simp] theorem setErr_cos : (d.setErr e).cos = d.cos := by cases e <;> rfl
@[simp] theorem setErr_estate : (d.setErr e).estate = d.estate := by cases e <;> rfl
@[simp] theorem setErr_oplatch : (d.setErr e).oplatch = d.oplatch := by cases e <;> rfl
@[simp] theorem setErr_opnd : (d.setErr e).opnd = d.opnd := by cases e <;> rfl
@[simp] theorem setErr_cx : (d.setErr e).cx = d.cx := by cases e <;> rfl
@[simp] theorem setErr_cy : (d.setErr e).cy = d.cy := by cases e <;> rfl
@[simp] theorem setErr_cz : (d.setErr e).cz = d.cz := by cases e <;> rfl
@[simp] theorem setErr_ci : (d.setErr e).ci = d.ci := by cases e <;> rfl
@[simp] theorem setErr_remain : (d.setErr e).remain = d.remain := by cases e <;> rfl

@[simp] theorem reject_ie : (d.reject op e).ie = d.ie := by cases e <;> rfl
@[simp] theorem reject_done : (d.reject op e).done = true := by cases e <;> rfl
@[simp] theorem reject_lastop : (d.reject op e).lastop = op := by cases e <;> rfl
@[simp] theorem reject_arg : (d.reject op e).arg = d.arg := by cases e <;> rfl
@[simp] theorem reject_sin : (d.reject op e).sin = d.sin := by cases e <;> rfl
@[simp] theorem reject_cos : (d.reject op e).cos = d.cos := by cases e <;> rfl
@[simp] theorem reject_estate : (d.reject op e).estate = d.estate := by cases e <;> rfl
@[simp] theorem reject_oplatch : (d.reject op e).oplatch = d.oplatch := by cases e <;> rfl
@[simp] theorem reject_opnd : (d.reject op e).opnd = d.opnd := by cases e <;> rfl
@[simp] theorem reject_cx : (d.reject op e).cx = d.cx := by cases e <;> rfl
@[simp] theorem reject_cy : (d.reject op e).cy = d.cy := by cases e <;> rfl
@[simp] theorem reject_cz : (d.reject op e).cz = d.cz := by cases e <;> rfl
@[simp] theorem reject_ci : (d.reject op e).ci = d.ci := by cases e <;> rfl
@[simp] theorem reject_remain : (d.reject op e).remain = d.remain := by cases e <;> rfl

@[simp] theorem drop_ie : d.drop.ie = d.ie := rfl
@[simp] theorem drop_done : d.drop.done = d.done := rfl
@[simp] theorem drop_lastop : d.drop.lastop = d.lastop := rfl
@[simp] theorem drop_arg : d.drop.arg = d.arg := rfl
@[simp] theorem drop_sin : d.drop.sin = d.sin := rfl
@[simp] theorem drop_cos : d.drop.cos = d.cos := rfl
@[simp] theorem drop_estate : d.drop.estate = d.estate := rfl
@[simp] theorem drop_oplatch : d.drop.oplatch = d.oplatch := rfl
@[simp] theorem drop_opnd : d.drop.opnd = d.opnd := rfl
@[simp] theorem drop_cx : d.drop.cx = d.cx := rfl
@[simp] theorem drop_cy : d.drop.cy = d.cy := rfl
@[simp] theorem drop_cz : d.drop.cz = d.cz := rfl
@[simp] theorem drop_ci : d.drop.ci = d.ci := rfl
@[simp] theorem drop_remain : d.drop.remain = d.remain := rfl

/-- `set_err(f)` sets bit `f` and no other (R160). -/
theorem err_setErr (g : ErrFlag) : (d.setErr e).err g = (d.err g || decide (g = e)) := by
  cases e <;> cases g <;> simp [Device.setErr, Device.err]

theorem err_reject (g : ErrFlag) : (d.reject op e).err g = (d.err g || decide (g = e)) := by
  cases e <;> cases g <;> simp [Device.reject, Device.setErr, Device.err]

theorem err_drop (g : ErrFlag) : d.drop.err g = (d.err g || decide (g = .ovr)) := by
  cases g <;> simp [Device.drop, Device.setErr, Device.err]

/-- The STATUS write clears exactly the error bits written with 1 (R142). -/
theorem err_clearW1C (g : ErrFlag) : (d.clearW1C v).err g = (d.err g && !v.getLsbD g.bit) := by
  cases g <;> rfl

end

end Sys2Proof.Machine
end

