-- ==== Sys2Proof/Laws/Ops.lean ====
section
/-! SUPPORT. What each shared operation can do, said once: acceptance, completion, a clock cycle, a command's step, a bus
access. Later proofs cite these and do not unfold the operations. -/

namespace Sys2Proof.Machine

section Mover
variable (s : State)

theorem mover_of_turns {t : Turn} {ts : List Turn} (h : s.turns = t :: ts) : s.mover = t := by
  simp [State.mover, h]

/-- Who moves depends on the interleaving, on `rst_n` and on ESTATE alone. -/
theorem mover_congr {s t : State} (h1 : t.turns = s.turns) (h2 : t.dev.estate = s.dev.estate) (h3 : t.rstN = s.rstN) :
    t.mover = s.mover := by
  simp [State.mover, h1, h2, h3]

end Mover

section Present
variable {d : Device} {op : BitVec 4} {err : Option ErrFlag} {e : ErrFlag}

theorem present_of_run (h : d.estate = .run) : d.present op err = d.drop := by simp [Device.present, h]

theorem present_of_error (h : d.estate = .idle) : d.present op (some e) = d.reject op e := by simp [Device.present, h]

theorem present_of_idle (h : d.estate = .idle) : d.present op none = d.accept op := by simp [Device.present, h]

/-- The three things presenting a command can do (R162). -/
theorem present_cases (d : Device) (op : BitVec 4) (err : Option ErrFlag) :
    (d.estate = .run ∧ d.present op err = d.drop) ∨
    (d.estate = .idle ∧ ∃ e, err = some e ∧ d.present op err = d.reject op e) ∨
    (d.estate = .idle ∧ err = none ∧ d.present op err = d.accept op) := by
  cases h : d.estate with
  | run => exact .inl ⟨rfl, present_of_run h⟩
  | idle =>
    cases err with
    | none => exact .inr (.inr ⟨rfl, rfl, present_of_idle h⟩)
    | some e => exact .inr (.inl ⟨rfl, e, rfl, present_of_error h⟩)

end Present

section Outcome
variable {f : State → State} {o : Result} {t : State}

/-- A next state after `onNext` comes from a next state. -/
theorem onNext_eq_next : onNext f o = .next t ↔ ∃ s, o = .next s ∧ f s = t := by
  cases o <;> simp [onNext]

@[simp] theorem onNext_next (s : State) : onNext f (.next s) = .next (f s) := rfl

end Outcome

/-- The error a command is rejected with at acceptance, apart from what its word says (R162). -/
def errorOf (i : Instr) (d : Device) : Option ErrFlag :=
  match i with
  | .nop => none
  | .fsincos => none
  | .sin64rot => none
  | .romrd => romrdError d

/-- What a command writes at completion, before BUSY and DONE (R166). -/
def resultOf (i : Instr) (d : Device) : Option Device :=
  match i with
  | .nop => some d
  | .fsincos => some (fsincosResult d)
  | .sin64rot => some (sin64rotResult d)
  | .romrd => romrdResult d

/-- A command's inner work in a clock cycle (R210). -/
def cycleOf (i : Instr) (d : Device) : Device :=
  match i with
  | .nop => d
  | .fsincos => fsincosCycle d
  | .sin64rot => d
  | .romrd => d

/-- Every command's meaning is the shared command step with its own error, result and cycle. -/
theorem exec_eq_runCommand (i : Instr) (s : State) :
    exec i s = runCommand (opcodeOf i) (errorOf i s.dev) (resultOf i) (cycleOf i) s := by
  cases i <;> rfl

/-- A completion's result leaves the latches, LASTOP, DONE, ARG, IE and every error bit as they were (R166). -/
theorem resultOf_frame {i : Instr} {d e : Device} (h : resultOf i d = some e) :
    e.oplatch = d.oplatch ∧ e.opnd = d.opnd ∧ e.lastop = d.lastop ∧ e.done = d.done ∧ e.arg = d.arg ∧ e.ie = d.ie ∧
    e.errIllop = d.errIllop ∧ e.errRsvd = d.errRsvd ∧ e.errOvr = d.errOvr ∧ e.errRange = d.errRange := by
  cases i with
  | nop => injection h with h; subst h; simp
  | fsincos => injection h with h; subst h; simp [fsincosResult]
  | sin64rot => injection h with h; subst h; simp [sin64rotResult]
  | romrd =>
    simp only [resultOf, romrdResult] at h
    split at h
    · injection h with h; subst h; simp
    · simp at h

/-- An inner cycle changes only the CORDIC vector and CI (R34, R210). -/
theorem cycleOf_eq (i : Instr) (d : Device) : cycleOf i d = d.setVec (cycleOf i d).vec (cycleOf i d).ci := by
  cases i <;> simp only [cycleOf, fsincosCycle]
  · rfl
  · split
    · rfl
    · split <;> rfl
  · rfl
  · rfl

section Run
variable {op : BitVec 4} {err : Option ErrFlag} {result : Device → Option Device} {advance : Device → Device}
  {s t : State}

/-- What a completion can do (R166). -/
theorem finishCommand_next (h : finishCommand result s = .next t) :
    (s.dev.estate = .idle ∧ t = s) ∨
    (s.dev.estate = .run ∧ ∃ d, result s.dev = some d ∧ t = { s with dev := d.endCommand }) := by
  unfold finishCommand at h
  cases he : s.dev.estate with
  | idle => rw [he] at h; injection h with h; exact .inl ⟨rfl, h.symm⟩
  | run =>
    rw [he] at h
    cases hr : result s.dev with
    | none => simp [hr] at h
    | some d =>
      simp only [hr] at h
      injection h with h
      exact .inr ⟨rfl, d, rfl, h.symm⟩

/-- What a clock cycle can do (R210). -/
theorem cycleCommand_next (h : cycleCommand result advance s = .next t) :
    (s.dev.estate = .idle ∧ t = s) ∨
    (s.dev.estate = .run ∧ s.dev.remain ≤ 1 ∧ ∃ d, result s.dev = some d ∧ t = { s with dev := d.endCommand }) ∨
    (s.dev.estate = .run ∧ 1 < s.dev.remain ∧
      t = s.mapDev fun d => { advance d with remain := d.remain - 1 }) := by
  unfold cycleCommand at h
  cases he : s.dev.estate with
  | idle => rw [he] at h; injection h with h; exact .inl ⟨rfl, h.symm⟩
  | run =>
    simp only [he] at h
    split at h
    · rename_i hle
      rcases finishCommand_next h with ⟨hi, -⟩ | ⟨-, d, hd, ht⟩
      · simp [he] at hi
      · exact .inr (.inl ⟨rfl, hle, d, hd, ht⟩)
    · rename_i hle
      injection h with h
      exact .inr (.inr ⟨rfl, by omega, h.symm⟩)

/-- Everything a command's step can do when it answers a next state. -/
theorem runCommand_next (h : runCommand op err result advance s = .next t) :
    (s.mover = .host ∧ t = s.mapDev (Device.present op err)) ∨
    (s.mover ≠ .host ∧ t = s) ∨
    (s.dev.estate = .run ∧ (s.mover = .engine ∨ s.mover = .clock ∧ s.dev.remain ≤ 1) ∧
      ∃ d, result s.dev = some d ∧ t = { s with dev := d.endCommand }) ∨
    (s.dev.estate = .run ∧ s.mover = .clock ∧ 1 < s.dev.remain ∧
      t = s.mapDev fun d => { advance d with remain := d.remain - 1 }) := by
  unfold runCommand at h
  cases hm : s.mover with
  | host => rw [hm] at h; injection h with h; exact .inl ⟨rfl, h.symm⟩
  | rst b => rw [hm] at h; injection h with h; exact .inr (.inl ⟨by simp, h.symm⟩)
  | engine =>
    rw [hm] at h
    rcases finishCommand_next h with ⟨-, ht⟩ | ⟨hr, d, hd, ht⟩
    · exact .inr (.inl ⟨by simp, ht⟩)
    · exact .inr (.inr (.inl ⟨hr, .inl rfl, d, hd, ht⟩))
  | clock =>
    rw [hm] at h
    rcases cycleCommand_next h with ⟨-, ht⟩ | ⟨hr, hle, d, hd, ht⟩ | ⟨hr, hlt, ht⟩
    · exact .inr (.inl ⟨by simp, ht⟩)
    · exact .inr (.inr (.inl ⟨hr, .inr ⟨rfl, hle⟩, d, hd, ht⟩))
    · exact .inr (.inr (.inr ⟨hr, rfl, hlt, ht⟩))

theorem runCommand_host (h : s.mover = .host) :
    runCommand op err result advance s = .next (s.mapDev (Device.present op err)) := by
  simp [runCommand, h]

theorem runCommand_engine (h : s.mover = .engine) : runCommand op err result advance s = finishCommand result s := by
  simp [runCommand, h]

theorem runCommand_clock (h : s.mover = .clock) :
    runCommand op err result advance s = cycleCommand result advance s := by
  simp [runCommand, h]

theorem finishCommand_run {d : Device} (h : s.dev.estate = .run) (hd : result s.dev = some d) :
    finishCommand result s = .next { s with dev := d.endCommand } := by
  simp [finishCommand, h, hd]

end Run

/-- The range test of R162 says exactly when ROMRD's table holds the word (R120). -/
theorem romWord_isSome (a : Word) : (romWord (romSelOf a) (romIdxOf a)).isSome = romInRange a := by
  unfold romWord romInRange
  split <;> rw [Bool.eq_iff_iff] <;> simp <;> omega

section Bus
variable {a : Access} {s t : State}

theorem admits_iff (addr size : Nat) :
    s.admits addr size = true ↔ size = 4 ∧ addr % 4 = 0 ∧ s.base ≤ addr ∧ addr ≤ s.base + 0x1C := by
  simp [State.admits, and_assoc]

theorem inWindow_iff (addr : Nat) : s.inWindow addr = true ↔ s.base ≤ addr ∧ addr ≤ s.base + 0x1F := by
  simp [State.inWindow]

theorem inWindow_of_admits {addr size : Nat} (h : s.admits addr size = true) : s.inWindow addr = true := by
  rw [admits_iff] at h; rw [inWindow_iff]; omega

/-- A register's own address is admitted and selects it (R20, R50, R53). -/
theorem admits_reg (r : Reg) : s.admits (s.base + r.offset) 4 = true := by
  rw [admits_iff]; cases r <;> simp [Reg.offset, State.base, Config.windowBytes] <;> omega

theorem regAt_reg (r : Reg) : regAt (s.base + r.offset) = r := by
  have h : (s.base + r.offset) / 4 % 8 = r.offset / 4 := by
    cases r <;> simp only [Reg.offset, State.base, Config.windowBytes] <;> omega
  unfold regAt
  rw [h]
  cases r <;> rfl

theorem busAccess_inReset (h : s.rstN = false) : busAccess a s = .refused .hostStepInReset := by simp [busAccess, h]

theorem busAccess_outside (h : s.rstN = true) (hw : s.inWindow a.addr = false) :
    busAccess a s = .next { s with rdata := none } := by
  simp [busAccess, h, hw]

theorem busAccess_rejected (h : s.rstN = true) (hw : s.inWindow a.addr = true) (ha : s.admits a.addr a.size = false) :
    busAccess a s = .fault (.busError a.addr) := by
  simp [busAccess, h, hw, ha]

theorem busAccess_read {addr size : Nat} (h : s.rstN = true) (ha : s.admits addr size = true) :
    busAccess ⟨addr, size, .read⟩ s = .next { s with rdata := some (s.dev.readReg (regAt addr)) } := by
  simp [busAccess, h, inWindow_of_admits ha, ha]

theorem busAccess_write {addr size : Nat} {v : Word} (h : s.rstN = true) (ha : s.admits addr size = true) :
    busAccess ⟨addr, size, .write v⟩ s = writeReg (regAt addr) v { s with rdata := none } := by
  simp [busAccess, h, inWindow_of_admits ha, ha]

/-- A write of the register `r` at its own address. -/
theorem busAccess_writeReg {v : Word} (r : Reg) (h : s.rstN = true) :
    busAccess ⟨s.base + r.offset, 4, .write v⟩ s = writeReg r v { s with rdata := none } := by
  rw [busAccess_write h (admits_reg r), regAt_reg]

/-- A read of the register `r` at its own address. -/
theorem busAccess_readReg (r : Reg) (h : s.rstN = true) :
    busAccess ⟨s.base + r.offset, 4, .read⟩ s = .next { s with rdata := some (s.dev.readReg r) } := by
  rw [busAccess_read h (admits_reg r), regAt_reg]

end Bus

section Agents
variable {s t : State}

theorem engineStep_idle (h : s.dev.estate = .idle) : engineStep s = .next s := by simp [engineStep, h]

theorem engineStep_run {i : Instr} (h : s.dev.estate = .run) (hi : instrOfOp s.dev.oplatch = some i) :
    engineStep s = exec i s := by
  simp [engineStep, h, hi]

/-- The opcode map is one to one (R71). -/
theorem instrOfOp_eq_some {op : BitVec 4} {i : Instr} : instrOfOp op = some i ↔ op = opcodeOf i := by
  revert op; cases i <;> decide

end Agents

end Sys2Proof.Machine
end

