-- ==== Sys2Proof/Laws/Bus.lean ====
section
/-! SUPPORT. What a CMD write, a register write and a bus access do to the unit on the host's turn, said once. -/

namespace Sys2Proof.Machine

section Fields
variable (w : Word)

theorem opField_eq_ofNat : opField w = BitVec.ofNat 4 (w.toNat % 16) := by
  apply BitVec.eq_of_toNat_eq
  simp [opField, BitVec.extractLsb'_toNat]

theorem rsvdField_eq_zero : rsvdField w = 0 ↔ w.toNat / 16 = 0 := by
  rw [← BitVec.toNat_inj]
  have := w.isLt
  simp [rsvdField, BitVec.extractLsb'_toNat, Nat.shiftRight_eq_div_pow]
  omega

theorem instrOfOp_eq_none {op : BitVec 4} : instrOfOp op = none ↔ 4 ≤ op.toNat := by
  revert op; decide

theorem romSelOf_eq : romSelOf w = decide (w.toNat / 256 % 2 = 1) := by
  rw [romSelOf, BitVec.getLsbD, Nat.testBit_eq_decide_div_mod_eq]

theorem romIdxOf_toNat : (romIdxOf w).toNat = w.toNat % 64 := by simp [romIdxOf]

theorem angleIndexOf_toNat : (angleIndexOf w).toNat = w.toNat % 64 := by simp [angleIndexOf]

/-- A command's OP field is its opcode. -/
theorem opField_of_decode {w : Word} {i : Instr} (h : decodeWord w = .instr i) : opField w = opcodeOf i := by
  unfold decodeWord at h
  split at h
  · simp at h
  · rename_i j hj
    split at h
    · injection h with h; subst h; exact instrOfOp_eq_some.1 hj
    · simp at h

end Fields

/-- The error a command word is rejected with while IDLE: its own, or its command's (R161, R162). -/
def wordError (w : Word) (d : Device) : Option ErrFlag :=
  match decodeWord w with
  | .instr i => errorOf i d
  | .illegalOp _ => some .illop
  | .reservedBits _ => some .rsvd

/-- What an admitted write does to the unit on the host's turn (R141 to R145, R162). -/
def Device.write (r : Reg) (v : Word) (d : Device) : Device :=
  match r with
  | .ctrl => d.writeCtrl v
  | .status => d.writeStatus v
  | .arg => d.writeArg v
  | .cmd => d.present (opField v) (wordError v d)
  | .id => d
  | .sin => d
  | .cos => d
  | .rsv1c => d

variable {s t : State}

theorem presentWord_host (w : Word) (hm : s.mover = .host) :
    presentWord w s = .next (s.mapDev (Device.write .cmd w)) := by
  cases hd : decodeWord w with
  | instr i =>
    simp only [presentWord, hd, exec_eq_runCommand, runCommand_host hm, State.mapDev, Device.write, wordError,
      opField_of_decode hd]
  | illegalOp op =>
    have : opField w = op := by
      unfold decodeWord at hd
      split at hd
      · injection hd
      · split at hd <;> simp at hd
    simp only [presentWord, hd, State.mapDev, Device.write, wordError, this]
  | reservedBits op =>
    have : opField w = op := by
      unfold decodeWord at hd
      split at hd
      · simp at hd
      · split at hd
        · simp at hd
        · injection hd
    simp only [presentWord, hd, State.mapDev, Device.write, wordError, this]

theorem writeReg_host (r : Reg) (v : Word) (hm : s.mover = .host) :
    writeReg r v s = .next (s.mapDev (Device.write r v)) := by
  cases r
  case cmd => exact presentWord_host v hm
  all_goals rfl

/-- Everything a bus access of the host can do when it answers a next state. -/
theorem busAccess_next {a : Access} (hm : s.mover = .host) (h : busAccess a s = .next t) :
    (s.rstN = true ∧ s.inWindow a.addr = false ∧ t = { s with rdata := none }) ∨
    (s.rstN = true ∧ s.admits a.addr a.size = true ∧ a.kind = .read ∧
      t = { s with rdata := some (s.dev.readReg (regAt a.addr)) }) ∨
    (s.rstN = true ∧ s.admits a.addr a.size = true ∧ ∃ v, a.kind = .write v ∧
      t = { s with rdata := none, dev := s.dev.write (regAt a.addr) v }) := by
  by_cases hr : s.rstN = true
  · refine Or.imp (⟨hr, ·⟩) (Or.imp (⟨hr, ·⟩) (⟨hr, ·⟩)) ?_
    by_cases hw : s.inWindow a.addr = true
    · by_cases ha : s.admits a.addr a.size = true
      · obtain ⟨addr, size, kind⟩ := a
        cases kind with
        | read =>
          rw [busAccess_read hr ha] at h
          injection h with h
          exact .inr (.inl ⟨ha, rfl, h.symm⟩)
        | write v =>
          rw [busAccess_write hr ha, writeReg_host _ _ (by simpa [State.mover] using hm)] at h
          injection h with h
          exact .inr (.inr ⟨ha, v, rfl, h.symm⟩)
      · rw [busAccess_rejected hr hw (by simpa using ha)] at h
        simp at h
    · rw [busAccess_outside hr (by simpa using hw)] at h
      injection h with h
      exact .inl ⟨by simpa using hw, h.symm⟩
  · simp [busAccess_inReset (Bool.eq_false_of_not_eq_true hr)] at h

/-- An access that is not a bus error answers a next state on the host's turn. -/
theorem busAccess_answers {a : Access} (hm : s.mover = .host) (hr : s.rstN = true)
    (h : s.inWindow a.addr = true → s.admits a.addr a.size = true) :
    ∃ d r, busAccess a s = .next { s with dev := d, rdata := r } := by
  cases hw : s.inWindow a.addr with
  | false => exact ⟨s.dev, none, busAccess_outside hr hw⟩
  | true =>
    have ha := h hw
    obtain ⟨addr, size, kind⟩ := a
    cases kind with
    | read => exact ⟨_, _, busAccess_read hr ha⟩
    | write v =>
      rw [busAccess_write hr ha, writeReg_host _ _ (by simpa [State.mover] using hm)]
      exact ⟨_, _, rfl⟩

end Sys2Proof.Machine
end

