-- ==== Sys2Proof/Laws/Vars.lean ====
section
/-! SUPPORT. The host's variables: a read after a write, every other variable unchanged, and the canonical form kept. -/

namespace Sys2Proof.Machine

theorem lookupVar_bindVar_same (x : HostVar) (v : Int) (l : List (HostVar × Int)) :
    lookupVar x (bindVar x v l) = some v := by
  induction l with
  | nil => simp [bindVar, lookupVar]
  | cons p rest ih =>
    obtain ⟨y, w⟩ := p
    simp only [bindVar]
    split
    · simp [lookupVar]
    · split
      · simp [lookupVar]
      · rename_i h; simp [lookupVar, h, ih]

theorem lookupVar_bindVar_other (x y : HostVar) (v : Int) (l : List (HostVar × Int)) (hxy : y ≠ x) :
    lookupVar y (bindVar x v l) = lookupVar y l := by
  induction l with
  | nil => simp [bindVar, lookupVar, hxy]
  | cons p rest ih =>
    obtain ⟨z, w⟩ := p
    simp only [bindVar]
    split
    · simp [lookupVar, hxy]
    · split
      · rename_i h; subst h; simp [lookupVar, hxy]
      · simp [lookupVar, ih]

/-- Every variable of a canonical tail lies above its head. -/
theorem varsWf_cons (x : HostVar) (v : Int) (l : List (HostVar × Int)) :
    varsWf ((x, v) :: l) = true ↔ varsWf l = true ∧ ∀ p ∈ l, x < p.1 := by
  induction l generalizing x v with
  | nil => simp [varsWf]
  | cons q rest ih =>
    obtain ⟨y, w⟩ := q
    simp only [varsWf, Bool.and_eq_true, decide_eq_true_eq, ih, List.mem_cons, forall_eq_or_imp]
    constructor
    · rintro ⟨h, h1, h2⟩
      exact ⟨⟨h1, h2⟩, h, fun p hp => lt_trans h (h2 p hp)⟩
    · rintro ⟨h1, h2, -⟩
      exact ⟨h2, h1⟩

theorem mem_bindVar (x : HostVar) (v : Int) (l : List (HostVar × Int)) (p : HostVar × Int) :
    p ∈ bindVar x v l → p = (x, v) ∨ p ∈ l := by
  induction l with
  | nil => simp [bindVar]
  | cons q rest ih =>
    obtain ⟨y, w⟩ := q
    simp only [bindVar]
    split
    · simp
    · split
      · simp only [List.mem_cons]; tauto
      · simp only [List.mem_cons]; tauto

theorem varsWf_bindVar (x : HostVar) (v : Int) (l : List (HostVar × Int)) (h : varsWf l = true) :
    varsWf (bindVar x v l) = true := by
  induction l with
  | nil => simp [bindVar, varsWf]
  | cons q rest ih =>
    obtain ⟨y, w⟩ := q
    obtain ⟨h1, h2⟩ := (varsWf_cons y w rest).1 h
    simp only [bindVar]
    split
    · rename_i hlt
      refine (varsWf_cons _ _ _).2 ⟨h, ?_⟩
      simp only [List.mem_cons, forall_eq_or_imp]
      exact ⟨hlt, fun p hp => lt_trans hlt (h2 p hp)⟩
    · split
      · rename_i heq; subst heq; exact (varsWf_cons _ _ _).2 ⟨h1, h2⟩
      · rename_i hlt hne
        refine (varsWf_cons _ _ _).2 ⟨ih h1, fun p hp => ?_⟩
        rcases mem_bindVar x v rest p hp with rfl | hp
        · exact lt_of_le_of_ne (not_lt.1 hlt) (Ne.symm hne)
        · exact h2 p hp

theorem mem_unbindVar (x : HostVar) (l : List (HostVar × Int)) (p : HostVar × Int) :
    p ∈ unbindVar x l → p ∈ l := by
  induction l with
  | nil => simp [unbindVar]
  | cons q rest ih =>
    obtain ⟨y, w⟩ := q
    simp only [unbindVar]
    split <;> simp only [List.mem_cons] <;> tauto

theorem varsWf_unbindVar (x : HostVar) (l : List (HostVar × Int)) (h : varsWf l = true) :
    varsWf (unbindVar x l) = true := by
  induction l with
  | nil => simp [unbindVar, varsWf]
  | cons q rest ih =>
    obtain ⟨y, w⟩ := q
    obtain ⟨h1, h2⟩ := (varsWf_cons y w rest).1 h
    simp only [unbindVar]
    split
    · exact h1
    · exact (varsWf_cons _ _ _).2 ⟨ih h1, fun p hp => h2 p (mem_unbindVar x rest p hp)⟩

theorem lookupVar_unbindVar_same (x : HostVar) (l : List (HostVar × Int)) (h : varsWf l = true) :
    lookupVar x (unbindVar x l) = none := by
  induction l with
  | nil => simp [unbindVar, lookupVar]
  | cons q rest ih =>
    obtain ⟨y, w⟩ := q
    obtain ⟨h1, h2⟩ := (varsWf_cons y w rest).1 h
    simp only [unbindVar]
    split
    · rename_i heq; subst heq
      clear ih h h1
      induction rest with
      | nil => simp [lookupVar]
      | cons r rest ih =>
        obtain ⟨z, u⟩ := r
        have hz : x < z := h2 (z, u) (by simp)
        have hne : x ≠ z := ne_of_lt hz
        simp only [lookupVar, hne, if_false]
        exact ih fun p hp => h2 p (by simp [hp])
    · rename_i hne
      simp [lookupVar, hne, ih h1]

end Sys2Proof.Machine
end

