-- ==== Sys2Proof/Laws/Step.lean ====
section
/-! SUPPORT. What a step can do, said once: the frame of the host's step, the cases of a step on the unit, and the canonical form
of the host's variables. Later proofs cite these and do not unfold `step`. -/

namespace Sys2Proof.Machine

variable {s t : State}

/-- What the host's step can do on its turn: the pins, BASE and the interleaving stay, the variables keep their canonical form,
and the unit is unchanged or written by the admitted access the host makes. -/
theorem hostStep_next (hm : s.mover = .host) (h : hostStep s = .next t) :
    s.rstN = true ∧ t.rstN = s.rstN ∧ t.window = s.window ∧ t.turns = s.turns ∧ (varsWf s.vars = true → varsWf t.vars = true) ∧
    (t.dev = s.dev ∨ ∃ r v, s.hostWrites r v ∧ t.dev = s.dev.write r v) := by
  have access : ∀ {a : Access} {u0 u : State}, busAccess a u0 = .next u → s.hostAccess = some a →
      u0.mover = s.mover → u0.rstN = s.rstN → u0.window = s.window → u0.turns = s.turns → u0.vars = s.vars →
      u0.dev = s.dev →
      u.rstN = s.rstN ∧ u.window = s.window ∧ u.turns = s.turns ∧ u.vars = s.vars ∧
      (u.dev = s.dev ∨ ∃ r v, s.hostWrites r v ∧ u.dev = s.dev.write r v) := by
    intro a u0 u hu ha g1 g2 g3 g4 g5 g6
    rcases busAccess_next (g1.trans hm) hu with ⟨-, -, rfl⟩ | ⟨-, -, -, rfl⟩ | ⟨hr, had, v, hk, rfl⟩
    · exact ⟨g2, g3, g4, g5, .inl g6⟩
    · exact ⟨g2, g3, g4, g5, .inl g6⟩
    · have hads : s.admits a.addr a.size = true := by
        rw [admits_iff] at had ⊢
        simpa [State.base, g3] using had
      exact ⟨g2, g3, g4, g5, .inr ⟨_, v, ⟨g2 ▸ hr, hm, a, ha, inWindow_of_admits hads, hads, rfl, hk⟩,
        by rw [← g6]⟩⟩
  unfold hostStep at h
  split at h
  case isFalse => simp at h
  rename_i hr
  refine ⟨hr, ?_⟩
  unfold hostStatement at h
  split at h
  · injection h with h; subst h; exact ⟨rfl, rfl, rfl, id, .inl rfl⟩
  · rename_i tg e k hp
    obtain ⟨h1, h2, h3, h4, h5⟩ := access h (by simp [State.hostAccess, hp]) (mover_congr rfl rfl rfl) rfl rfl rfl rfl rfl
    exact ⟨h1, h2, h3, by rw [h4]; exact id, h5⟩
  · rename_i tg x k hp
    obtain ⟨u, hu, rfl⟩ := onNext_eq_next.1 h
    obtain ⟨h1, h2, h3, h4, h5⟩ :=
      access hu (by simp [State.hostAccess, hp]) (mover_congr rfl rfl rfl) rfl rfl rfl rfl rfl
    unfold bindRead
    split
    · exact ⟨h1, h2, h3, fun hw => varsWf_bindVar _ _ _ (h4 ▸ hw), h5⟩
    · exact ⟨h1, h2, h3, fun hw => varsWf_unbindVar _ _ (h4 ▸ hw), h5⟩
  · rename_i k hp
    obtain ⟨u, hu, rfl⟩ := onNext_eq_next.1 h
    obtain ⟨h1, h2, h3, h4, h5⟩ := access hu (by simp [State.hostAccess, hp]) rfl rfl rfl rfl rfl rfl
    unfold endWait
    split
    · split <;> exact ⟨h1, h2, h3, by rw [← h4]; exact id, h5⟩
    · exact ⟨h1, h2, h3, by rw [← h4]; exact id, h5⟩
  · injection h with h; subst h; split <;> exact ⟨rfl, rfl, rfl, id, .inl rfl⟩
  · injection h with h; subst h; exact ⟨rfl, rfl, rfl, varsWf_bindVar _ _ _, .inl rfl⟩
  · injection h with h
    subst h
    split
    · exact ⟨rfl, rfl, rfl, varsWf_bindVar _ _ _, .inl rfl⟩
    · exact ⟨rfl, rfl, rfl, id, .inl rfl⟩
  · injection h with h; subst h; exact ⟨rfl, rfl, rfl, id, .inl rfl⟩

/-- What the engine's step can do, on its own turn or in a clock cycle: nothing, the completion of the latched command, or one
inner cycle of it; only the unit changes. -/
theorem engineStep_next (hm : s.mover = .engine ∨ s.mover = .clock) (h : engineStep s = .next t) :
    t = s ∨
    (s.dev.estate = .run ∧ (s.mover = .engine ∨ s.mover = .clock ∧ s.dev.remain ≤ 1) ∧
      ∃ i d, s.dev.oplatch = opcodeOf i ∧ resultOf i s.dev = some d ∧ t = { s with dev := d.endCommand }) ∨
    (s.dev.estate = .run ∧ s.mover = .clock ∧ 1 < s.dev.remain ∧
      ∃ i, s.dev.oplatch = opcodeOf i ∧
        t = { s with dev := { cycleOf i s.dev with remain := s.dev.remain - 1 } }) := by
  have hne : s.mover ≠ .host := by rcases hm with hm | hm <;> simp [hm]
  unfold engineStep at h
  split at h
  · injection h with h; exact .inl h.symm
  · split at h
    · rename_i i hi
      rw [exec_eq_runCommand] at h
      rcases runCommand_next h with ⟨hc, -⟩ | ⟨-, ht⟩ | ⟨h1, h2, d, hd, ht⟩ | ⟨h1, h2, h3, ht⟩
      · exact absurd hc hne
      · exact .inl ht
      · exact .inr (.inl ⟨h1, h2, i, d, instrOfOp_eq_some.1 hi, hd, ht⟩)
      · exact .inr (.inr ⟨h1, h2, h3, i, instrOfOp_eq_some.1 hi, ht⟩)
    · simp at h

/-- Everything a step can do to the unit, with the frame of the rest. -/
theorem step_next (h : step s = .next t) :
    t.window = s.window ∧ t.turns = s.turns.tail ∧ ((∀ b, s.mover ≠ .rst b) → t.rstN = s.rstN) ∧
    (varsWf s.vars = true → varsWf t.vars = true) ∧
    (((s.rstN = false ∨ s.mover = .rst true) ∧ t.dev = Device.reset) ∨
     (s.rstN = true ∧ t.dev = s.dev) ∨
     (∃ r v, s.hostWrites r v ∧ t.dev = s.dev.write r v) ∨
     (s.completes ∧ ∃ i d, s.dev.oplatch = opcodeOf i ∧ resultOf i s.dev = some d ∧ t.dev = d.endCommand) ∨
     (s.rstN = true ∧ s.dev.estate = .run ∧ s.mover = .clock ∧ 1 < s.dev.remain ∧
       ∃ i, s.dev.oplatch = opcodeOf i ∧ t.dev = { cycleOf i s.dev with remain := s.dev.remain - 1 })) := by
  cases hr : s.rstN with
  | true =>
    have hold := holdReset_of_released s hr
    have engine : ∀ {u : State}, s.mover = .engine ∨ s.mover = .clock → engineStep s = .next u →
        u.window = s.window ∧ u.turns = s.turns ∧ u.rstN = s.rstN ∧ u.vars = s.vars ∧
        (u.dev = s.dev ∨
         (s.completes ∧ ∃ i d, s.dev.oplatch = opcodeOf i ∧ resultOf i s.dev = some d ∧ u.dev = d.endCommand) ∨
         (s.dev.estate = .run ∧ s.mover = .clock ∧ 1 < s.dev.remain ∧
           ∃ i, s.dev.oplatch = opcodeOf i ∧ u.dev = { cycleOf i s.dev with remain := s.dev.remain - 1 })) := by
      intro u hm hu
      rcases engineStep_next hm hu with rfl | ⟨h1, h2, i, d, h3, h4, rfl⟩ | ⟨h1, h2, h3, i, h4, rfl⟩
      · exact ⟨rfl, rfl, rfl, rfl, .inl rfl⟩
      · exact ⟨rfl, rfl, rfl, rfl, .inr (.inl ⟨⟨hr, h1, h2⟩, i, d, h3, h4, rfl⟩)⟩
      · exact ⟨rfl, rfl, rfl, rfl, .inr (.inr ⟨h1, h2, h3, i, h4, rfl⟩)⟩
    unfold step at h
    rw [hold] at h
    cases hm : s.mover with
    | host =>
      simp only [hm] at h
      obtain ⟨u, hu, rfl⟩ := onNext_eq_next.1 h
      obtain ⟨-, h1, h2, h3, h4, h5⟩ := hostStep_next hm hu
      refine ⟨h2, by rw [popTurn_turns, h3], fun _ => h1.trans hr, h4, ?_⟩
      rcases h5 with h5 | h5
      · exact .inr (.inl ⟨rfl, h5⟩)
      · exact .inr (.inr (.inl h5))
    | engine =>
      simp only [hm] at h
      obtain ⟨u, hu, rfl⟩ := onNext_eq_next.1 h
      obtain ⟨h1, h2, h3, h4, h5⟩ := engine (.inl hm) hu
      refine ⟨h1, by rw [popTurn_turns, h2], fun _ => h3.trans hr, by rw [popTurn_vars, h4]; exact id, ?_⟩
      rcases h5 with h5 | h5 | ⟨-, h5, -⟩
      · exact .inr (.inl ⟨rfl, h5⟩)
      · exact .inr (.inr (.inr (.inl h5)))
      · simp [hm] at h5
    | clock =>
      simp only [hm] at h
      obtain ⟨u, hu, rfl⟩ := onNext_eq_next.1 h
      obtain ⟨h1, h2, h3, h4, h5⟩ := engine (.inr hm) hu
      refine ⟨h1, by rw [popTurn_turns, h2], fun _ => h3.trans hr, by rw [popTurn_vars, h4]; exact id, ?_⟩
      rcases h5 with h5 | h5 | ⟨g1, -, g2, g3⟩
      · exact .inr (.inl ⟨rfl, h5⟩)
      · exact .inr (.inr (.inr (.inl h5)))
      · exact .inr (.inr (.inr (.inr ⟨rfl, g1, rfl, g2, g3⟩)))
    | rst b =>
      simp only [hm] at h
      injection h with h
      subst h
      refine ⟨rfl, rfl, fun hb => absurd rfl (hb b), id, ?_⟩
      cases b with
      | true => exact .inl ⟨.inr rfl, rfl⟩
      | false => exact .inr (.inl ⟨rfl, by simp [hr]⟩)
  | false =>
    have hold := holdReset_of_asserted s hr
    have hidle : s.holdReset.dev.estate = .idle := by rw [hold]; rfl
    unfold step at h
    cases hm : s.mover with
    | host =>
      simp only [hm] at h
      obtain ⟨u, hu, rfl⟩ := onNext_eq_next.1 h
      simp [hostStep, hr] at hu
    | engine =>
      simp only [hm, engineStep_idle hidle] at h
      injection h with h
      subst h
      exact ⟨by simp, by simp, fun _ => by simpa using hr, by simp, .inl ⟨.inl rfl, by rw [popTurn_dev, hold]⟩⟩
    | clock =>
      simp only [hm, engineStep_idle hidle] at h
      injection h with h
      subst h
      exact ⟨by simp, by simp, fun _ => by simpa using hr, by simp, .inl ⟨.inl rfl, by rw [popTurn_dev, hold]⟩⟩
    | rst b =>
      simp only [hm] at h
      injection h with h
      subst h
      exact ⟨rfl, rfl, fun hb => absurd rfl (hb b), id, .inl ⟨.inl rfl, by simp [hr]⟩⟩

/-- A run of `k + 1` steps whose first answers a next state goes on from there. -/
theorem run_of_step {M : Host.Core} {k : Nat} {s t : M.State} (h : M.step s = .next t) : M.run (k + 1) s = M.run k t := by
  show (match M.step s with
    | .next s' => M.run k s'
    | .fault r => .fault r
    | .refused r => .refused r) = _
  rw [h]

end Sys2Proof.Machine
end

