-- ==== Sys2Proof/Tests/Slice0.lean ====
section
/-! SUPPORT. The model's own tests: words written out from the encoding, the well-formedness checks, one step on small states with
expected values from spec/95_test_vectors.md, and for every statement with hypotheses a state that meets them. -/

-- One test after another: the `decide +kernel` proofs then do not wait for earlier proofs in a thread each.
set_option Elab.async false

namespace Sys2Proof.Tests

open Sys2Proof.Machine

/-! ## Helpers -/

/-- A next state was answered and it passes the check. -/
def answers (o : Result) (p : State → Bool) : Bool :=
  match o with
  | .next t => p t
  | .fault _ => false
  | .refused _ => false

theorem next_of_answers {o : Result} {p : State → Bool} (h : answers o p = true) : ∃ t, o = .next t ∧ p t = true := by
  cases o with
  | next t => exact ⟨t, rfl, h⟩
  | fault r => simp [answers] at h
  | refused r => simp [answers] at h

/-- The unit with a command just accepted. -/
def running (op : BitVec 4) (opnd : Word) : Device :=
  { Device.reset with estate := .run, oplatch := op, lastop := op, opnd := opnd, remain := latencyOf op }

/-- The engine to move on an accepted command. -/
def engineState (op : BitVec 4) (opnd : Word) : State := { State.reset with dev := running op opnd, turns := [.engine] }

/-- The clock to move on an accepted command. -/
def clockState (op : BitVec 4) (opnd : Word) : State := { State.reset with dev := running op opnd, turns := [.clock] }

/-- The host to move, with `d` the unit and one write to make. -/
def writeState (d : Device) (r : Reg) (v : Int) : State :=
  { State.reset with dev := d, prog := .write (.reg r) (.lit v) .done, turns := [.host] }

/-- The host to move on the unit `d`. -/
def hostState (d : Device) : State := { State.reset with dev := d, turns := [.host] }

/-! ## Encoding: words written out from 30_encoding.md R70, R71, R75 -/

theorem test_decode_nop : decodeLanes 0b00000000#8 0#8 0#8 0#8 = .instr .nop := by decide
theorem test_decode_fsincos : decodeLanes 0b00000001#8 0#8 0#8 0#8 = .instr .fsincos := by decide
theorem test_decode_sin64rot : decodeLanes 0b00000010#8 0#8 0#8 0#8 = .instr .sin64rot := by decide
theorem test_decode_romrd : decodeLanes 0b00000011#8 0#8 0#8 0#8 = .instr .romrd := by decide
theorem test_decode_illegal_first : decodeLanes 0x17#8 0#8 0#8 0#8 = .illegalOp 7#4 := by decide
theorem test_decode_reserved_high_lane : decodeLanes 0#8 0#8 0#8 0x80#8 = .reservedBits 0#4 := by decide
theorem test_decode_table_word_short : decodeTableWord 8 2 = some .sin64rot := by decide
theorem test_decode_table_word_refuses : decodeTableWord 32 4 = none := by decide

/-- The ill-formed word of each check is refused by it (R75 (a), (b)). -/
theorem test_opAssigned_refuses : opAssigned 0x00000004#32 = false ∧ wellFormedWord 0x00000004#32 = false := by decide
theorem test_rsvdZero_refuses : rsvdZero 0x00000010#32 = false ∧ wellFormedWord 0x00000010#32 = false := by decide
theorem test_wellFormed_accepts : wellFormedWord 0x00000003#32 = true := by decide

/-! ## One step of each command -/

/-- V5.1, the completed NOP: STATUS 0x00000002. -/
theorem test_nop_completes :
    answers (step (engineState 0 0)) (fun t => t.dev.statusWord == 0x2#32 && t.dev.sin == 0) = true := by decide +kernel

/-- R140's corner: 0x00000010 is no NOP; from reset it gives STATUS 0x0000000A (V5.6's flags). -/
theorem test_nop_reserved_bits_rejected :
    answers (step (State.reset.withFetchWord 32 0x10)) (fun t => t.dev.statusWord == 0xA#32) = true := by decide +kernel

/-- V2.16: PHASE 0x20000000. -/
theorem test_fsincos_quarter :
    answers (step (engineState 1 0x20000000)) (fun t =>
      t.dev.sin == 0x5A827997#32 && t.dev.cos == 0x5A82797D#32 && t.dev.statusWord == 0x102#32) = true := by
  decide +kernel

/-- V2.10: the first phase of the third branch. -/
theorem test_fsincos_third_branch :
    answers (step (engineState 1 0xBFFFFFFD)) (fun t =>
      t.dev.sin == 0x80000011#32 && t.dev.cos == 0xFFFFFFF3#32) = true := by decide +kernel

/-- V3.65: N = 40 with the ignored bits set. -/
theorem test_sin64rot_ignored_bits :
    answers (step (engineState 2 0xFFFFFFE8)) (fun t =>
      t.dev.sin == 0x7641AF3D#32 && t.dev.cos == 0xCF043AB3#32 && t.dev.statusWord == 0x202#32) = true := by
  decide +kernel

/-- V3.33: N = 32, the branch's first index, with no negative zero. -/
theorem test_sin64rot_right_angle :
    answers (step (engineState 2 32)) (fun t => t.dev.sin == 0x7FFFFFFF#32 && t.dev.cos == 0#32) = true := by
  decide +kernel

/-- V4.9: SEL and IDX with every ignored bit set. -/
theorem test_romrd_ignored_bits :
    answers (step (engineState 3 0xFFFFFEC5)) (fun t => t.dev.sin == 0x1F19F97B#32 && t.dev.cos == 0#32) = true := by
  decide +kernel

/-- V4.8: ATAN index 31 is rejected with STATUS 0x00000322. -/
theorem test_romrd_out_of_range :
    answers (step (State.withFetchWord { State.reset with dev := { Device.reset with arg := 0x11F } } 32 3))
      (fun t => t.dev.statusWord == 0x322#32 && t.dev.sin == 0) = true := by decide +kernel

/-! ## Register writes and the bus -/

/-- V5.5: ERR_ILLOP outranks ERR_RSVD. -/
theorem test_illegal_outranks_reserved :
    answers (step (State.reset.withFetchWord 32 0x17)) (fun t => t.dev.statusWord == 0x706#32) = true := by decide +kernel

/-- V5.7: a CMD write while busy. -/
theorem test_busy_drop :
    answers (step (State.withFetchWord (hostState (running 1 0)) 32 2)) (fun t => t.dev.statusWord == 0x111#32) = true := by
  decide +kernel

/-- V5.10: STATUS 0x706 written with ones leaves 0x700. -/
theorem test_status_write :
    answers (step (writeState { Device.reset with done := true, errIllop := true, lastop := 7 } .status 0xFFFFFFFF))
      (fun t => t.dev.statusWord == 0x700#32) = true := by decide +kernel

/-- V5.13: CTRL written with 0xFFFFFFFD reads 1. -/
theorem test_ctrl_write :
    answers (step (writeState Device.reset .ctrl 0xFFFFFFFD)) (fun t => t.dev.readReg .ctrl == 1#32) = true := by
  decide +kernel

/-- V5.14: CTRL written with 3 resets, also while busy (P4). -/
theorem test_soft_reset :
    answers (step (writeState { running 1 5 with ie := true } .ctrl 3)) (fun t => t.dev == Device.reset) = true := by
  decide +kernel

/-- V6.1: an 8-bit read of SIN is a bus error. -/
theorem test_byte_read_faults :
    step { State.reset with prog := .read (.raw 0x14 1) 0 .done, turns := [.host] } = .fault (.busError 0x14) := by
  rfl

/-- V6.3: a 32-bit write at BASE + 0x0E is a bus error. -/
theorem test_misaligned_write_faults :
    step { State.reset with prog := .write (.raw 0x0E 4) (.lit 1) .done, turns := [.host] } = .fault (.busError 0x0E) := by
  rfl

/-- V5.18: a read of SIN while busy returns the previous value. -/
theorem test_read_while_busy :
    answers (step { hostState (running 1 0x40000000) with prog := rd .sin 4 .done })
      (fun t => t.rdata == some 0#32 && t.vars == [(4, 0)] && t.dev.busy) = true := by decide +kernel

/-- R78: `ROM.S` writes `(sel << 8) OR idx`. -/
theorem test_rom_pseudo_operand :
    answers (step { State.reset with prog := romS (.lit 1) (.lit 30) 0 .done }) (fun t => t.dev.arg == 0x11E#32) = true := by
  decide +kernel

/-- R77 `FOR`: the variable takes the first value and the loop goes on from the next. -/
theorem test_loop :
    answers (step { State.reset with prog := .loop 2 (.lit 0) (.lit 3) .done .done })
      (fun t => t.vars == [(2, 0)] && t.prog == .loop 2 (.lit 1) (.lit 3) .done .done) = true := by decide +kernel

/-- P2: `LET n = 8 + 16*k` with k = 3 gives 56. -/
theorem test_let_with_product :
    answers (step { State.reset with
        vars := [(2, 3)], prog := .assign 5 (.add (.lit 8) (.mul (.lit 16) (.var 2))) .done })
      (fun t => t.vars == [(2, 3), (5, 56)]) = true := by decide +kernel

/-- A statement that reads an unbound variable runs: its value is free, and the write happens (log entry 16). -/
theorem test_unbound_variable_runs :
    answers (step { State.reset with prog := .write (.reg .arg) (.var 0) .done })
      (fun t => t.prog == .done && t.dev.estate == .idle) = true := by rfl

/-- A sample of `rst_n` that finds it released as before resets nothing (R190). -/
theorem test_released_sample_keeps_the_unit :
    answers (step { engineState 1 5 with turns := [.rst false] }) (fun t => t.dev == running 1 5) = true := by
  decide +kernel

/-! ## Witnesses: every statement's hypotheses are met -/

theorem running_sound_fsincos : (running 1 0x20000000).Sound where
  latch := by decide
  idle := by decide
  done := by decide
  lastop := by decide
  cycles := by decide
  range := by decide
  cordic := fun _ _ h => absurd h (by decide)

theorem running_sound_romrd : (running 3 0x20).Sound where
  latch := by decide
  idle := by decide
  done := by decide
  lastop := by decide
  cycles := by decide
  range := by decide
  cordic := fun _ h => absurd h (by decide)

theorem engine_inv_fsincos : (engineState 1 0x20000000).Inv := ⟨running_sound_fsincos, by decide, by decide⟩

theorem engine_inv_romrd : (engineState 3 0x20).Inv := ⟨running_sound_romrd, by decide, by decide⟩

theorem witness_StepRunsTheWrittenCommand : ∃ (s : State) (t : Target) (e : HostExpr) (k : HostProg) (i : Instr),
    s.rstN = true ∧ s.mover = .host ∧ s.prog = .write t e k ∧
      s.targetAddr t = (s.base + 0x10, 4) ∧ decodeWord (asU32 (s.value e)) = .instr i :=
  ⟨writeState Device.reset .cmd 1, .reg .cmd, .lit 1, .done, .fsincos, by decide⟩

theorem witness_StepRunsTheLatchedCommand : ∃ (s : State) (i : Instr),
    s.rstN = true ∧ (s.mover = .engine ∨ s.mover = .clock) ∧ s.dev.estate = .run ∧ s.dev.oplatch = opcodeOf i :=
  ⟨engineState 2 5, .sin64rot, by decide⟩

theorem witness_StepRunsTheLatchedCommand_clock : ∃ (s : State) (i : Instr),
    s.rstN = true ∧ s.mover = .clock ∧ s.dev.estate = .run ∧ s.dev.oplatch = opcodeOf i :=
  ⟨clockState 1 5, .fsincos, by decide⟩

theorem witness_HostStatementIsOneBusAccess_write : ∃ (s : State) (t : Target) (e : HostExpr) (k : HostProg),
    s.rstN = true ∧ s.mover = .host ∧ s.prog = .write t e k :=
  ⟨writeState Device.reset .arg (-1), .reg .arg, .lit (-1), .done, by decide⟩

theorem witness_HostStatementIsOneBusAccess_read : ∃ (s : State) (t : Target) (x : HostVar) (k : HostProg),
    s.rstN = true ∧ s.mover = .host ∧ s.prog = .read t x k :=
  ⟨{ State.reset with prog := rd .cos 0 .done }, .reg .cos, 0, .done, by decide⟩

theorem witness_WaitEndsWhenDone_wait : ∃ (s : State) (k : HostProg),
    s.rstN = true ∧ s.mover = .host ∧ s.prog = .wait k ∧ s.dev.done = true :=
  ⟨{ hostState { Device.reset with done := true } with prog := .wait .done }, .done, by decide⟩

theorem witness_WaitEndsWhenDone_waitIrq : ∃ (s : State) (k : HostProg),
    s.rstN = true ∧ s.mover = .host ∧ s.prog = .waitIrq k ∧ s.dev.ie = true ∧ s.dev.done = true :=
  ⟨{ hostState { Device.reset with done := true, ie := true } with prog := .waitIrq .done }, .done, by decide⟩

theorem witness_IdleCommandIsAccepted : ∃ (s : State) (i : Instr),
    s.mover = .host ∧ s.dev.estate = .idle ∧ (i = .romrd → romInRange s.dev.arg = true) ∧ i = .romrd :=
  ⟨hostState { Device.reset with arg := 0x11E }, .romrd, by decide⟩

theorem witness_BusyCommandWriteIsDropped : ∃ s : State, s.rstN = true ∧ s.mover = .host ∧ s.dev.estate = .run :=
  ⟨hostState (running 1 0), by decide⟩

theorem witness_RejectedCommandRecordsItsError : ∃ s : State, ∃ w1 w2 w3 : Word,
    s.rstN = true ∧ s.mover = .host ∧ s.dev.estate = .idle ∧ 4 ≤ w1.toNat % 16 ∧
      (w2.toNat % 16 < 4 ∧ w2.toNat / 16 ≠ 0) ∧ (w3.toNat = 3 ∧ romInRange s.dev.arg = false) :=
  ⟨hostState { Device.reset with arg := 33 }, 0x4, 0x13, 3, by decide⟩

theorem witness_OneErrorPerCommandWrite : ∃ s : State, s.rstN = true ∧ s.mover = .host :=
  ⟨hostState Device.reset, by decide⟩

theorem witness_RomrdOutOfRangeIsRejected_sin64 : ∃ s : State, s.mover = .host ∧ s.dev.estate = .idle ∧
    (s.dev.arg.toNat / 256 % 2 = 0 ∧ 33 ≤ s.dev.arg.toNat % 64) :=
  ⟨hostState { Device.reset with arg := 0x21 }, by decide⟩

theorem witness_RomrdOutOfRangeIsRejected_atan : ∃ s : State, s.mover = .host ∧ s.dev.estate = .idle ∧
    (s.dev.arg.toNat / 256 % 2 = 1 ∧ 31 ≤ s.dev.arg.toNat % 64) :=
  ⟨hostState { Device.reset with arg := 0x11F }, by decide⟩

theorem witness_NopCompletes : ∃ s : State, s.mover = .engine ∧ s.dev.estate = .run := ⟨engineState 0 0, by decide⟩

theorem witness_FsincosCompletes : ∃ s : State, s.mover = .engine ∧ s.dev.estate = .run ∧ s.dev.oplatch = 1 :=
  ⟨engineState 1 0xFFFFFFFF, by decide⟩

theorem witness_Sin64rotCompletes_lower : ∃ (s : State) (a b : Word), s.mover = .engine ∧ s.dev.estate = .run ∧
    s.dev.opnd.toNat % 64 < 32 ∧ sin64Rom[s.dev.opnd.toNat % 64]? = some a ∧
      sin64Rom[32 - s.dev.opnd.toNat % 64]? = some b :=
  ⟨engineState 2 31, 0x7FD8878E, 0x0647D97C, by decide +kernel⟩

theorem witness_Sin64rotCompletes_upper : ∃ (s : State) (a b : Word), s.mover = .engine ∧ s.dev.estate = .run ∧
    32 ≤ s.dev.opnd.toNat % 64 ∧ sin64Rom[64 - s.dev.opnd.toNat % 64]? = some a ∧
      sin64Rom[s.dev.opnd.toNat % 64 - 32]? = some b :=
  ⟨engineState 2 32, 0x7FFFFFFF, 0, by decide +kernel⟩

theorem witness_RomrdCompletes_sin64 : ∃ (s : State) (a : Word), s.mover = .engine ∧ s.dev.estate = .run ∧
    (s.dev.opnd.toNat / 256 % 2 = 0 ∧ sin64Rom[s.dev.opnd.toNat % 64]? = some a) :=
  ⟨engineState 3 0x20, 0x7FFFFFFF, by decide +kernel⟩

theorem witness_RomrdCompletes_atan : ∃ (s : State) (a : Word), s.mover = .engine ∧ s.dev.estate = .run ∧
    (s.dev.opnd.toNat / 256 % 2 = 1 ∧ atanRom[s.dev.opnd.toNat % 64]? = some a) :=
  ⟨engineState 3 0x11E, 0, by decide +kernel⟩

theorem witness_CompletionStep : ∃ s : State, s.Inv ∧ s.rstN = true ∧ s.mover = .engine ∧ s.dev.estate = .run ∧
    s.dev.oplatch = 1 :=
  ⟨_, engine_inv_fsincos, by decide⟩

theorem witness_CompletionStep_romrd : ∃ s : State, s.Inv ∧ s.rstN = true ∧ s.mover = .engine ∧ s.dev.estate = .run ∧
    s.dev.oplatch = 3 :=
  ⟨_, engine_inv_romrd, by decide⟩

theorem witness_ClockCycleCountsDown_first : ∃ s : State, s.mover = .clock ∧ s.dev.estate = .run ∧ 1 < s.dev.remain ∧
    s.dev.remain = 33 :=
  ⟨clockState 1 0, by decide⟩

theorem witness_ClockCycleCountsDown_last_rotation : ∃ s : State, s.mover = .clock ∧ s.dev.estate = .run ∧
    1 < s.dev.remain ∧ s.dev.remain ≠ 33 ∧ s.dev.ci.val = 30 :=
  ⟨{ clockState 1 0 with dev := { running 1 0 with remain := 2, ci := 30 } }, by decide⟩

theorem witness_LastClockCycleCompletes : ∃ s : State, s.mover = .clock ∧ s.dev.estate = .run ∧ s.dev.remain ≤ 1 :=
  ⟨clockState 2 0, by decide⟩

theorem witness_IdleEngineDoesNothing : ∃ s : State, s.rstN = true ∧ s.dev.estate = .idle ∧
    (s.mover = .engine ∨ s.mover = .clock) :=
  ⟨{ State.reset with turns := [.clock] }, by decide⟩

/-- The three quadrant clauses at their boundary phases; no phase falls under two (R102, R105 (c)). -/
theorem witness_QuadrantNormalisation : (0x3FFFFFFE#32).toNat < 0x3FFFFFFF ∧
    (0x3FFFFFFF ≤ (0xBFFFFFFC#32).toNat ∧ (0xBFFFFFFC#32).toNat < 0xBFFFFFFD) ∧ 0xBFFFFFFD ≤ (0xBFFFFFFD#32).toNat := by
  decide

theorem witness_AngleAccumulatorNeverWraps : ∃ (i : Nat) (v : Vec), i < 31 ∧ 0x3FFFFFFF ≤ v.z.toNat :=
  ⟨30, ⟨0, 0, 0x3FFFFFFF⟩, by decide⟩

theorem witness_AngleAccumulatorNeverWraps_below : ∃ (i : Nat) (v : Vec), i < 31 ∧ v.z.toNat < 0x3FFFFFFF :=
  ⟨0, ⟨0, 0, 0x3FFFFFFE⟩, by decide⟩

theorem witness_FoldingRule : (31#6).toNat < 32 ∧ 32 ≤ (32#6).toNat := by decide

theorem witness_FoldedSignsAndIgnoredBits : ∃ a b : Word, a ≠ b ∧ a.toNat % 64 = b.toNat % 64 :=
  ⟨0x28, 0xFFFFFFE8, by decide⟩

/-- The host's turn outside reset: the hypotheses of the register-write statements. -/
theorem witness_CtrlWrite : ∃ (s : State) (v v' : Word), s.rstN = true ∧ s.mover = .host ∧ v.getLsbD 1 = true ∧
    v'.getLsbD 1 = false :=
  ⟨hostState (running 1 0), 3, 0xFFFFFFFD, by decide⟩

theorem witness_StatusWriteClearsTheBitsWrittenWithOne : ∃ s : State, s.rstN = true ∧ s.mover = .host ∧
    s.dev.done = true :=
  ⟨hostState { Device.reset with done := true }, by decide⟩

theorem witness_ArgWrite : ∃ s : State, s.rstN = true ∧ s.mover = .host ∧ s.dev.estate = .run :=
  ⟨hostState (running 1 0), by decide⟩

theorem witness_ReadOnlyAndReservedWritesAreIgnored : ∃ (s : State) (off : Nat), s.rstN = true ∧ s.mover = .host ∧
    (off = 0x00 ∨ off = 0x14 ∨ off = 0x18 ∨ off = 0x1C) :=
  ⟨hostState Device.reset, 0x1C, by decide⟩

theorem witness_ReadsReturnTheRegister : ∃ s : State, s.rstN = true := ⟨State.reset, rfl⟩

theorem witness_RejectedAccessIsABusError_size : ∃ (s : State) (addr size : Nat), s.rstN = true ∧ s.base ≤ addr ∧
    addr ≤ s.base + 0x1F ∧ size ≠ 4 :=
  ⟨State.reset, 0x14, 1, by decide⟩

theorem witness_RejectedAccessIsABusError_misaligned : ∃ (s : State) (addr : Nat), s.rstN = true ∧ s.base ≤ addr ∧
    addr ≤ s.base + 0x1F ∧ addr % 4 ≠ 0 :=
  ⟨State.reset, 0x1F, by decide⟩

theorem witness_AccessOutsideTheWindowIsUnseen : ∃ (s : State) (a b : Access), s.rstN = true ∧
    a.addr < s.base ∧ s.base + 0x1F < b.addr :=
  ⟨{ State.reset with window := 1 }, ⟨31, 4, .read⟩, ⟨64, 4, .read⟩, by decide⟩

theorem witness_AdmittedAccessAnswers : ∃ (s : State) (addr : Nat), s.rstN = true ∧ s.mover = .host ∧ addr % 4 = 0 ∧
    s.base ≤ addr ∧ addr ≤ s.base + 0x1C :=
  ⟨hostState Device.reset, 0x1C, by decide⟩

theorem witness_WritesWithoutSideEffectsAreIdempotent : ∃ (s t : State), s.rstN = true ∧ s.mover = .host ∧
    busAccess { addr := s.base + 0x0C, size := 4, kind := .write 7 } s = .next t :=
  ⟨hostState Device.reset, _, by decide, by decide, rfl⟩

theorem witness_WritesWithoutSideEffectsAreIdempotent_ctrl : ∃ (s t : State) (v : Word), s.rstN = true ∧ s.mover = .host ∧
    v.getLsbD 1 = false ∧ busAccess { addr := s.base + 0x04, size := 4, kind := .write v } s = .next t :=
  ⟨hostState Device.reset, _, 1, by decide, by decide, by decide, rfl⟩

theorem witness_SoftResetRestoresResetValues : ∃ (s : State) (v : Word), s.rstN = true ∧ s.mover = .host ∧
    v.getLsbD 1 = true :=
  ⟨hostState (running 1 0), 2, by decide⟩

theorem witness_HardwareResetHoldsTheUnit_assert : ∃ s : State, s.mover = .rst true ∧ s.dev.estate = .run :=
  ⟨{ engineState 1 0 with turns := [.rst true] }, by decide⟩

theorem witness_HardwareResetHoldsTheUnit_release : ∃ s s' : State, s.mover = .rst false ∧ s.rstN = false ∧
    s'.mover = .rst false ∧ s'.rstN = true :=
  ⟨{ State.reset with rstN := false, turns := [.rst false] }, { State.reset with turns := [.rst false] }, by decide⟩

theorem witness_HardwareResetHoldsTheUnit_held : ∃ s t : State, s.rstN = false ∧ step s = .next t :=
  ⟨{ State.reset with rstN := false, turns := [.clock] }, _, rfl, rfl⟩

theorem witness_HardwareResetHoldsTheUnit_host : ∃ s : State, s.rstN = false ∧ s.mover = .host :=
  ⟨{ State.reset with rstN := false, turns := [.host] }, by decide⟩

theorem witness_InterruptLevel : ∃ (d d' : Device) (v v' : Word), v.getLsbD 1 = true ∧ v'.getLsbD 0 = false ∧
    d.estate = .idle ∧ d'.estate = .run :=
  ⟨Device.reset, running 1 0, 2, 0, by decide⟩

theorem witness_StepKeepsInvariant : ∃ s t : State, s.Inv ∧ step s = .next t := by
  obtain ⟨t, h, -⟩ := next_of_answers (o := step (engineState 1 0x20000000)) (p := fun _ => true) (by decide +kernel)
  exact ⟨_, t, engine_inv_fsincos, h⟩

theorem witness_BusyAndDoneNeverTogether : ∃ s t : State, s.Inv ∧ step s = .next t ∧ t.dev.done = true := by
  obtain ⟨t, h, hp⟩ := next_of_answers (o := step (engineState 3 0x20)) (p := fun t => t.dev.done) (by decide +kernel)
  exact ⟨_, t, engine_inv_romrd, h, hp⟩

theorem witness_SafeStateStepsOn : ∃ s : State, s.safe :=
  ⟨engineState 1 0x20000000, engine_inv_fsincos, fun h => absurd h (by decide)⟩

theorem witness_SafeStateStepsOn_host : ∃ s : State, s.safe ∧ s.mover = .host ∧ s.hostAccess.isSome = true := by
  refine ⟨{ State.reset with prog := rd .sin 0 .done }, ⟨⟨⟨by decide, by decide, by decide, by decide, by decide, by decide,
    fun h => absurd h (by decide)⟩, by decide, by decide⟩, fun _ => ⟨rfl, fun a ha _ => ?_⟩⟩, by decide, rfl⟩
  injection ha with ha
  subst ha
  decide

theorem witness_ErrorBitsAreSticky : ∃ s t : State, step s = .next t ∧ s.dev.err .ovr = true ∧ t.dev.err .ovr = false := by
  obtain ⟨t, h, ht⟩ := next_of_answers
    (o := step (writeState { Device.reset with errOvr := true } .status 0x10)) (p := fun t => !t.dev.err .ovr)
    (by decide +kernel)
  exact ⟨_, t, h, by decide, by simpa using ht⟩

theorem witness_ErrorBitsAreSetOnlyByCommandWrites : ∃ s t : State, step s = .next t ∧ s.dev.err .ovr = false ∧
    t.dev.err .ovr = true := by
  obtain ⟨t, h, ht⟩ := next_of_answers (o := step (writeState (running 1 0) .cmd 2)) (p := fun t => t.dev.err .ovr)
    (by decide +kernel)
  exact ⟨_, t, h, by decide, ht⟩

theorem witness_ResultsChangeOnlyAtCompletionOrReset : ∃ s t : State, step s = .next t ∧
    (t.dev.sin ≠ s.dev.sin ∨ t.dev.cos ≠ s.dev.cos) := by
  obtain ⟨t, h, ht⟩ := next_of_answers (o := step (engineState 2 16)) (p := fun t => t.dev.sin == 0x5A82799A#32)
    (by decide +kernel)
  exact ⟨_, t, h, .inl (by rw [eq_of_beq ht]; decide)⟩

theorem witness_BusyChangesOnlyAsStated_set : ∃ s t : State, step s = .next t ∧ s.dev.busy = false ∧ t.dev.busy = true := by
  obtain ⟨t, h, ht⟩ := next_of_answers (o := step (writeState Device.reset .cmd 3)) (p := fun t => t.dev.busy)
    (by decide +kernel)
  exact ⟨_, t, h, by decide, ht⟩

theorem witness_BusyChangesOnlyAsStated_clear : ∃ s t : State, step s = .next t ∧ s.dev.busy = true ∧ t.dev.busy = false := by
  obtain ⟨t, h, ht⟩ := next_of_answers (o := step (clockState 0 0)) (p := fun t => !t.dev.busy) (by decide +kernel)
  exact ⟨_, t, h, by decide, by simpa using ht⟩

theorem witness_DoneChangesOnlyAsStated_set : ∃ s t : State, step s = .next t ∧ s.dev.done = false ∧ t.dev.done = true := by
  obtain ⟨t, h, ht⟩ := next_of_answers (o := step (writeState Device.reset .cmd 0xF)) (p := fun t => t.dev.done)
    (by decide +kernel)
  exact ⟨_, t, h, by decide, ht⟩

theorem witness_DoneChangesOnlyAsStated_clear : ∃ s t : State, step s = .next t ∧ s.dev.done = true ∧
    t.dev.done = false := by
  obtain ⟨t, h, ht⟩ := next_of_answers (o := step (writeState { Device.reset with done := true } .cmd 0))
    (p := fun t => !t.dev.done) (by decide +kernel)
  exact ⟨_, t, h, by decide, by simpa using ht⟩

theorem witness_LastopArgAndIeChangeOnlyAsStated_lastop : ∃ s t : State, step s = .next t ∧
    t.dev.lastop ≠ s.dev.lastop := by
  obtain ⟨t, h, ht⟩ := next_of_answers (o := step (writeState Device.reset .cmd 0xF)) (p := fun t => t.dev.lastop == 0xF#4)
    (by decide +kernel)
  exact ⟨_, t, h, by rw [eq_of_beq ht]; decide⟩

theorem witness_LastopArgAndIeChangeOnlyAsStated_arg : ∃ s t : State, step s = .next t ∧ t.dev.arg ≠ s.dev.arg := by
  obtain ⟨t, h, ht⟩ := next_of_answers (o := step (writeState Device.reset .arg (-1)))
    (p := fun t => t.dev.arg == 0xFFFFFFFF#32) (by decide +kernel)
  exact ⟨_, t, h, by rw [eq_of_beq ht]; decide⟩

theorem witness_LastopArgAndIeChangeOnlyAsStated_ie : ∃ s t : State, step s = .next t ∧ t.dev.ie ≠ s.dev.ie := by
  obtain ⟨t, h, ht⟩ := next_of_answers (o := step (writeState Device.reset .ctrl 1)) (p := fun t => t.dev.ie)
    (by decide +kernel)
  exact ⟨_, t, h, by rw [ht]; decide⟩

theorem witness_CommandFrame : ∃ (i : Instr) (s t : State), exec i s = .next t ∧ s.mover ≠ .host ∧ i ≠ .fsincos :=
  ⟨.nop, engineState 0 0, _, rfl, by decide, by decide⟩

theorem witness_CommandFrame_presented : ∃ (i : Instr) (s t : State), exec i s = .next t ∧ s.mover = .host ∧ i = .nop :=
  ⟨.nop, hostState Device.reset, _, rfl, by decide, rfl⟩

theorem witness_StepKeepsPlatform : ∃ s t : State, step s = .next t ∧ ∀ b, s.mover ≠ .rst b :=
  ⟨State.reset, _, rfl, by decide⟩

theorem witness_ResultsDependOnlyOnCommandAndOperand : ∃ s s' t t' : State, s.completes ∧ s'.completes ∧
    s.dev.oplatch = s'.dev.oplatch ∧ s.dev.opnd = s'.dev.opnd ∧ s.dev.oplatch ≠ 0 ∧ step s = .next t ∧
      step s' = .next t' := by
  obtain ⟨t, h, -⟩ := next_of_answers (o := step (engineState 3 5)) (p := fun _ => true) (by decide +kernel)
  obtain ⟨t', h', -⟩ := next_of_answers (o := step (clockState 3 5)) (p := fun _ => true) (by decide +kernel)
  exact ⟨engineState 3 5, clockState 3 5, t, t', ⟨rfl, rfl, .inl rfl⟩, ⟨rfl, rfl, .inr ⟨rfl, by decide⟩⟩, rfl, rfl, by decide, h, h'⟩

theorem witness_ArgWriteCommutesWithCompletion : ∃ s : State, (s.mover = .engine ∨ s.mover = .clock) ∧
    s.dev.estate = .run :=
  ⟨engineState 1 0, by decide⟩

theorem witness_ClockedRunEqualsOneCompletion : ∃ s : State, s.Inv ∧ s.rstN = true ∧ s.dev.estate = .run ∧
    s.dev.remain = 33 :=
  ⟨_, engine_inv_fsincos, by decide⟩

/-- An FSINCOS with only the write-back left. -/
def writeBack (p : Word) : Device :=
  { running 1 p with
    remain := 1, ci := 31, cx := (cordicVec p).x, cy := (cordicVec p).y, cz := (cordicVec p).z }

theorem witness_ClockedRunEqualsOneCompletion_writeBack : ∃ s : State, s.Inv ∧ s.dev.estate = .run ∧ s.dev.oplatch = 1 ∧
    s.dev.remain = 1 :=
  ⟨hostState (writeBack 5), ⟨⟨by decide, fun h => absurd h (by decide), by decide, by decide, by decide,
    fun _ h => absurd h (by decide), fun _ _ _ => ⟨rfl, by
      show cordicVec 5 = rotations 31 (normalise 5)
      unfold cordicVec
      rfl⟩⟩, fun h => absurd h (by decide), by decide⟩, rfl, rfl, rfl⟩

theorem witness_HostComputationSteps : ∃ s1 s2 s3 s4 s5 : State,
    (∀ s ∈ [s1, s2, s3, s4, s5], s.rstN = true ∧ s.mover = .host) ∧ s1.prog = .done ∧
    s2.prog = .assign 0 (.lit 1) .done ∧
    (s3.prog = .loop 0 (.lit 2) (.lit 2) .done .done ∧ s3.value (.lit 2) ≤ s3.value (.lit 2)) ∧
    (s4.prog = .loop 0 (.lit 3) (.lit 2) .done .done ∧ s4.value (.lit 2) < s4.value (.lit 3)) ∧
    s5.prog = .cond (.lt (.lit 1) (.lit 2)) .done .done :=
  ⟨State.reset, { State.reset with prog := .assign 0 (.lit 1) .done },
    { State.reset with prog := .loop 0 (.lit 2) (.lit 2) .done .done },
    { State.reset with prog := .loop 0 (.lit 3) (.lit 2) .done .done },
    { State.reset with prog := .cond (.lt (.lit 1) (.lit 2)) .done .done }, by decide⟩

theorem witness_DecodeChecksOpcodeThenReservedBits : 4 ≤ (0x00000014#32).toNat % 16 ∧
    ((0x00000013#32).toNat % 16 < 4 ∧ (0x00000013#32).toNat / 16 ≠ 0) ∧
    ((0x00000003#32).toNat / 16 = 0 ∧ (0x00000003#32).toNat % 16 = 3) := by decide

end Sys2Proof.Tests
end

section
/-! PROOFS. Scope (00_scope.md): what the agents' turns are while `rst_n` is released, the host's WR and RD as one bus access,
and results that depend on the command and its operand alone. -/

namespace Sys2Proof.Machine

section Turns
variable {s t : State}

theorem onNext_onNext (f g : State → State) (o : Result) : onNext f (onNext g o) = onNext (fun u => f (g u)) o := by
  cases o <;> rfl

/-- With `rst_n` released, the host's turn is the next statement of its program. -/
theorem step_host (hr : s.rstN = true) (hm : s.mover = .host) : step s = onNext State.popTurn (hostStatement s) := by
  simp [step, hm, holdReset_of_released s hr, hostStep, hr]

/-- With `rst_n` released, the engine's turn and a clock cycle are the engine's step. -/
theorem step_engine (hr : s.rstN = true) (hm : s.mover = .engine ∨ s.mover = .clock) :
    step s = onNext State.popTurn (engineStep s) := by
  rcases hm with hm | hm <;> simp [step, hm, holdReset_of_released s hr]

theorem hostStatement_write {tg : Target} {e : HostExpr} {k : HostProg} (hp : s.prog = .write tg e k) :
    hostStatement s = busAccess (s.writeOf tg (asU32 (s.value e))) (s.goOn k) := by
  simp [hostStatement, hp]

theorem hostStatement_read {tg : Target} {x : HostVar} {k : HostProg} (hp : s.prog = .read tg x k) :
    hostStatement s = onNext (bindRead x) (busAccess (s.readOf tg) { s with prog := k }) := by
  simp [hostStatement, hp]

end Turns

section Completion
variable {s t : State}

/-- In the clock cycle in which REMAIN reaches 0 a command completes (R166). -/
theorem cycleCommand_last {result : Device → Option Device} {advance : Device → Device} (hle : s.dev.remain ≤ 1) :
    cycleCommand result advance s = finishCommand result s := by
  cases he : s.dev.estate <;> simp [cycleCommand, finishCommand, he, hle]

/-- At a completion the command's meaning is to write its result, whoever's turn completes it. -/
theorem exec_of_completes (i : Instr) (hc : s.completes) : exec i s = finishCommand (resultOf i) s := by
  obtain ⟨-, -, hm | ⟨hm, hle⟩⟩ := hc
  · rw [exec_eq_runCommand, runCommand_engine hm]
  · rw [exec_eq_runCommand, runCommand_clock hm, cycleCommand_last hle]

/-- A completing step that answers a next state has written the result of the latched command, and nothing else can have
happened: a latch that holds no opcode is refused. -/
theorem completes_next (hc : s.completes) (h : step s = .next t) :
    ∃ i d, s.dev.oplatch = opcodeOf i ∧ resultOf i s.dev = some d ∧ t.dev = d.endCommand := by
  obtain ⟨hr, hrun, hm⟩ := id hc
  rw [step_engine hr (hm.imp_right And.left)] at h
  obtain ⟨u, hu, rfl⟩ := onNext_eq_next.1 h
  cases hi : instrOfOp s.dev.oplatch with
  | none => simp [engineStep, hrun, hi] at hu
  | some i =>
    rw [engineStep_run hrun hi, exec_of_completes i hc] at hu
    rcases finishCommand_next hu with ⟨hidle, -⟩ | ⟨-, d, hd, rfl⟩
    · simp [hrun] at hidle
    · exact ⟨i, d, instrOfOp_eq_some.1 hi, hd, rfl⟩

theorem opcodeOf_injective {i j : Instr} (h : opcodeOf i = opcodeOf j) : i = j :=
  Option.some.inj ((instrOfOp_eq_some.2 rfl).symm.trans (instrOfOp_eq_some.2 h))

/-- ROMRD's result is the table word and 0 (R120). -/
theorem romrdResult_eq_some {d e : Device} (h : romrdResult d = some e) :
    ∃ w, romWord (romSelOf d.opnd) (romIdxOf d.opnd) = some w ∧ e = d.writeResults w 0 := by
  unfold romrdResult at h
  split at h
  · next w hw => exact ⟨w, hw, (Option.some.inj h).symm⟩
  · cases h

/-- Every command but NOP computes SIN and COS from OPND alone (R6, R100). -/
theorem resultOf_results_congr {i : Instr} {d d' e e' : Device} (hi : i ≠ .nop) (ho : d.opnd = d'.opnd)
    (h : resultOf i d = some e) (h' : resultOf i d' = some e') : e.sin = e'.sin ∧ e.cos = e'.cos := by
  cases i with
  | nop => exact absurd rfl hi
  | fsincos => cases h; cases h'; simp [fsincosResult, ho]
  | sin64rot => cases h; cases h'; simp [sin64rotResult, ho]
  | romrd =>
    obtain ⟨w, hw, rfl⟩ := romrdResult_eq_some h
    obtain ⟨w', hw', rfl⟩ := romrdResult_eq_some h'
    have hww : w = w' := Option.some.inj (hw.symm.trans (ho ▸ hw'))
    simp [hww]

end Completion

/-- Settles O57: both steps write the result of the same latched command, which reads OPND alone. -/
theorem resultsDependOnlyOnCommandAndOperand : Obligations.ResultsDependOnlyOnCommandAndOperand := by
  intro s s' t t' hc hc' hop hopnd hne h h'
  obtain ⟨i, d, hi, hd, ht⟩ := completes_next hc h
  obtain ⟨j, d', hj, hd', ht'⟩ := completes_next hc' h'
  obtain rfl : i = j := opcodeOf_injective (hi.symm.trans (hop.trans hj))
  have hnop : i ≠ .nop := fun hn => hne (by rw [hi, hn]; rfl)
  simpa [ht, ht'] using resultOf_results_congr hnop hopnd hd hd'

/-- Settles O9: the host's turn is its next statement, and WR and RD are each one `busAccess`. -/
theorem hostStatementIsOneBusAccess : Obligations.HostStatementIsOneBusAccess := by
  intro s tg k hr hm
  refine ⟨fun e hp => ?write, fun x hp => ?read⟩
  case write =>
    rw [step_host hr hm, hostStatement_write hp]
    rfl
  case read =>
    rw [step_host hr hm, hostStatement_read hp, onNext_onNext]
    rfl

end Sys2Proof.Machine
end

section
/-! PROOFS. State (10_state.md): what a step can do to the unit, as one relation with a named case for each event; the invariant
of the machine; and for STATUS, SIN, COS, LASTOP, ARG and IE the only events that change them. -/

namespace Sys2Proof.Machine

section Decoding
variable {w : Word} {i : Instr} {d : Device}

theorem opcodeOf_toNat_lt (i : Instr) : (opcodeOf i).toNat < 4 := by cases i <;> decide

/-- Only a word with zero reserved bits decodes to a command (R75 (b)). -/
theorem rsvdField_of_decode (h : decodeWord w = .instr i) : rsvdField w = 0 := by
  unfold decodeWord at h
  split at h
  · simp at h
  · split at h
    · assumption
    · simp at h

/-- A word that decodes to a command is one of the four command words (R71). -/
theorem toNat_lt_of_decode (h : decodeWord w = .instr i) : w.toNat < 4 := by
  have hr : w.toNat / 16 = 0 := (rsvdField_eq_zero w).1 (rsvdField_of_decode h)
  have ho : (BitVec.ofNat 4 (w.toNat % 16)).toNat < 4 := by
    rw [← opField_eq_ofNat, opField_of_decode h]
    exact opcodeOf_toNat_lt i
  rw [BitVec.toNat_ofNat] at ho
  omega

/-- A word is presented without an error exactly when it decodes to a command that finds none (R162). -/
theorem wordError_eq_none : wordError w d = none ↔ ∃ i, decodeWord w = .instr i ∧ errorOf i d = none := by
  unfold wordError
  cases decodeWord w <;> simp

/-- Only an index in range lets ROMRD be presented without an error (R162). -/
theorem romInRange_of_romrdError (h : romrdError d = none) : romInRange d.arg = true := by
  by_contra hr
  simp [romrdError, hr] at h

end Decoding

/-! ## What a step can do to the unit -/

/-- The unit `e` that a step from `s` can leave, one case for each event; `unitStep_of_step` ties it to `step`. -/
inductive UnitStep (s : State) : Device → Prop where
  | reset (h : s.resets) : UnitStep s Device.reset
  | keep : UnitStep s s.dev
  | writeIe (v : Word) (hw : s.hostWrites .ctrl v) : UnitStep s { s.dev with ie := v.getLsbD 0 }
  | writeStatus (v : Word) (hw : s.hostWrites .status v) : UnitStep s (s.dev.clearW1C v)
  | writeArg (v : Word) (hw : s.hostWrites .arg v) : UnitStep s (s.dev.writeArg v)
  | drop (w : Word) (hw : s.hostWrites .cmd w) (hrun : s.dev.estate = .run) : UnitStep s s.dev.drop
  | reject (w : Word) (f : ErrFlag) (hw : s.hostWrites .cmd w) (hidle : s.dev.estate = .idle)
      (hf : wordError w s.dev = some f) : UnitStep s (s.dev.reject (opField w) f)
  | accept (w : Word) (i : Instr) (hw : s.hostWrites .cmd w) (hidle : s.dev.estate = .idle)
      (hi : decodeWord w = .instr i) (hf : errorOf i s.dev = none) : UnitStep s (s.dev.accept (opcodeOf i))
  | complete (i : Instr) (d : Device) (hc : s.completes) (hi : s.dev.oplatch = opcodeOf i)
      (hd : resultOf i s.dev = some d) : UnitStep s d.endCommand
  | cycle (i : Instr) (v : Vec) (j : Fin 32) (hrun : s.dev.estate = .run) (hlt : 1 < s.dev.remain)
      (hi : s.dev.oplatch = opcodeOf i) (hv : cycleOf i s.dev = s.dev.setVec v j) :
      UnitStep s { s.dev.setVec v j with remain := s.dev.remain - 1 }

section
variable {s t : State} {e : Device}

/-- An admitted write of the host is one of the events (R141 to R145, R162). -/
theorem unitStep_of_write {r : Reg} {v : Word} (hw : s.hostWrites r v) : UnitStep s (s.dev.write r v) := by
  cases r with
  | ctrl =>
    show UnitStep s (s.dev.writeCtrl v)
    unfold Device.writeCtrl
    split
    · next hv => exact .reset (.inr (.inr ⟨v, hw, hv⟩))
    · exact .writeIe v hw
  | status => exact .writeStatus v hw
  | arg => exact .writeArg v hw
  | cmd =>
    show UnitStep s (s.dev.present (opField v) (wordError v s.dev))
    obtain ⟨hrun, hp⟩ | ⟨hidle, f, hf, hp⟩ | ⟨hidle, hf, hp⟩ := present_cases s.dev (opField v) (wordError v s.dev)
    · rw [hp]; exact .drop v hw hrun
    · rw [hp]; exact .reject v f hw hidle hf
    · obtain ⟨i, hi, hf⟩ := wordError_eq_none.1 hf
      rw [hp, opField_of_decode hi]
      exact .accept v i hw hidle hi hf
  | id => exact .keep
  | sin => exact .keep
  | cos => exact .keep
  | rsv1c => exact .keep

/-- Every step that answers a next state does one of the events to the unit. -/
theorem unitStep_of_step (h : step s = .next t) : UnitStep s t.dev := by
  obtain ⟨-, -, -, -, hdev⟩ := step_next h
  rcases hdev with ⟨hr, he⟩ | ⟨-, he⟩ | ⟨r, v, hw, he⟩ | ⟨hc, i, d, hi, hd, he⟩ | ⟨-, hrun, -, hlt, i, hi, he⟩
  · rw [he]; exact .reset (hr.imp_right .inl)
  · rw [he]; exact .keep
  · rw [he]; exact unitStep_of_write hw
  · rw [he]; exact .complete i d hc hi hd
  · have hv := cycleOf_eq i s.dev
    rw [he, hv]
    exact .cycle i _ _ hrun hlt hi hv

end

/-! ## One clock cycle before the last -/

section Cycle
variable {s : State} {d : Device}

/-- With more than one cycle left a clock cycle does the command's inner work and counts REMAIN down (R210). -/
theorem exec_clock_before_last (i : Instr) (hm : s.mover = .clock) (hrun : s.dev.estate = .run)
    (hlt : 1 < s.dev.remain) :
    exec i s = .next { s with dev := { cycleOf i s.dev with remain := s.dev.remain - 1 } } := by
  rw [exec_eq_runCommand, runCommand_clock hm]
  simp [cycleCommand, hrun, Nat.not_le.2 hlt, State.mapDev]

/-- Only FSINCOS has inner work (R210). -/
theorem cycleOf_of_ne_fsincos {i : Instr} (hi : i ≠ .fsincos) (d : Device) : cycleOf i d = d := by
  cases i with
  | fsincos => exact absurd rfl hi
  | nop => rfl
  | sin64rot => rfl
  | romrd => rfl

theorem fsincosCycle_first (h : d.remain = 33) : fsincosCycle d = d.setVec (normalise d.opnd) 0 := by
  simp [fsincosCycle, h, Config.latFsincos, phaseOf]

theorem fsincosCycle_rotate (h : d.remain ≠ 33) (hi : d.ci.val < 31) :
    fsincosCycle d = d.setVec (rotateStep d.ci.val d.vec) (d.ci + 1) := by
  simp [fsincosCycle, h, hi, Config.latFsincos, Config.nIter]

/-- CI counts up without wrapping while a rotation is still to do (R34). -/
theorem val_succ_of_lt {j : Fin 32} (h : j.val < 31) : (j + 1).val = j.val + 1 :=
  Fin.val_add_one_of_lt (Fin.lt_def.2 h)

end Cycle

/-- Settles O22: the cycle is the command's inner work with REMAIN one less, and only FSINCOS has inner work. -/
theorem clockCycleCountsDown : Obligations.ClockCycleCountsDown := by
  intro s hm hrun hlt
  refine ⟨fun i hi => ?_, (fsincosCycle s.dev).vec, (fsincosCycle s.dev).ci, ?_, fun h33 => ?_, fun h33 hci => ?_⟩
  · rw [exec_clock_before_last i hm hrun hlt, cycleOf_of_ne_fsincos hi]
  · rw [exec_clock_before_last .fsincos hm hrun hlt, cycleOf_eq]
    rfl
  · rw [fsincosCycle_first h33]
    exact ⟨rfl, rfl⟩
  · rw [fsincosCycle_rotate h33 hci]
    exact ⟨rfl, val_succ_of_lt hci⟩

/-! ## The invariant -/

section Invariant
variable {s t : State} {d e : Device}

/-- A unit that is idle with no cycle left is sound, whatever its flags hold. -/
theorem sound_of_idle (hl : d.oplatch.toNat < 4) (hidle : d.estate = .idle) (hr : d.remain = 0) : d.Sound where
  latch := hl
  idle _ := hr
  done h := by simp [hidle] at h
  lastop h := by simp [hidle] at h
  cycles h := by simp [hidle] at h
  range h := by simp [hidle] at h
  cordic h := by simp [hidle] at h

theorem sound_reset : Device.reset.Sound := sound_of_idle (by decide) rfl rfl

theorem latencyOf_pos (op : BitVec 4) : 1 ≤ latencyOf op := by unfold latencyOf; split <;> decide

/-- Acceptance leaves a sound unit: the vector of an FSINCOS is still to be normalised (R162, R210). -/
theorem sound_accept {i : Instr} (hf : errorOf i d = none) : (d.accept (opcodeOf i)).Sound where
  latch := opcodeOf_toNat_lt i
  idle h := by simp at h
  done _ := rfl
  lastop _ := rfl
  cycles _ := ⟨latencyOf_pos _, le_rfl⟩
  range _ hop := by
    obtain rfl : i = .romrd := opcodeOf_injective hop
    exact romInRange_of_romrdError hf
  cordic _ hop := by
    obtain rfl : i = .fsincos := opcodeOf_injective hop
    exact fun hlt => absurd hlt (lt_irrefl _)

/-- The first cycle of FSINCOS puts the vector on its way, and each of the next takes it one rotation on (R102, R103, R210). -/
theorem fsincosCycle_onTrack (hle : d.remain ≤ 33) (hlt : 1 < d.remain) (htrack : d.cordicOnTrack) :
    Device.cordicOnTrack { fsincosCycle d with remain := d.remain - 1 } := by
  intro _
  by_cases h33 : d.remain = 33
  · rw [fsincosCycle_first h33, h33]
    exact ⟨rfl, rfl⟩
  · obtain ⟨hsum, hvec⟩ := htrack (show d.remain < 33 by omega)
    have hsum' : d.remain + d.ci.val = 32 := hsum
    have hci : d.ci.val < 31 := by omega
    rw [fsincosCycle_rotate h33 hci]
    constructor
    · show d.remain - 1 + (d.ci + 1).val = 32
      rw [val_succ_of_lt hci]
      omega
    · show rotateStep d.ci.val d.vec = rotations (d.ci + 1).val (normalise (phaseOf d.opnd))
      rw [val_succ_of_lt hci, rotations, ← hvec]

/-- Every event keeps the unit sound. -/
theorem UnitStep.sound (h : UnitStep s e) (hs : s.dev.Sound) : e.Sound := by
  cases h with
  | reset => exact sound_reset
  | keep => exact hs
  | writeIe v => exact { hs with }
  | writeStatus v => exact { hs with done := fun hr => by simp [hs.done hr] }
  | writeArg v => exact { hs with }
  | drop w => exact { hs with }
  | reject w f hw hi hf => exact sound_of_idle (by simpa using hs.latch) (by simpa using hi) (by simpa using hs.idle hi)
  | accept w i hw hi hd hf => exact sound_accept hf
  | complete i d hc hi hd =>
    obtain ⟨hop, -⟩ := resultOf_frame hd
    exact sound_of_idle (by simpa [hop] using hs.latch) rfl rfl
  | cycle i v j hrun hlt hi hv =>
    obtain ⟨-, hle⟩ := hs.cycles hrun
    exact { hs with
      idle := fun hidle => absurd (hrun.symm.trans hidle) (by decide)
      cycles := fun _ => ⟨Nat.le_sub_one_of_lt hlt, (Nat.sub_le _ _).trans hle⟩
      cordic := fun _ hop => by
        obtain rfl : i = .fsincos := opcodeOf_injective (hi.symm.trans hop)
        have hle33 : s.dev.remain ≤ 33 := by rw [hi] at hle; exact hle
        rw [← hv]
        exact fsincosCycle_onTrack hle33 hlt (hs.cordic hrun hop) }

/-- The reset pin's turn samples `rst_n` and does nothing else. -/
theorem step_rst {b : Bool} (hm : s.mover = .rst b) : step s = .next (s.rstPin b).popTurn := by simp [step, hm]

/-- After a step that leaves `rst_n` asserted the unit holds its reset values (R190). -/
theorem held_of_step (h : step s = .next t) (hr : t.rstN = false) : t.dev = Device.reset := by
  obtain ⟨-, -, hpin, -, hdev⟩ := step_next h
  by_cases hm : ∃ b, s.mover = .rst b
  case pos =>
    obtain ⟨b, hb⟩ := hm
    rw [step_rst hb] at h
    cases h
    cases b with
    | true => rfl
    | false => simp at hr
  case neg =>
    have hs : s.rstN = false := (hpin (by simpa using hm)).symm.trans hr
    rcases hdev with ⟨-, he⟩ | ⟨hs', -⟩ | ⟨_, _, ⟨hs', -⟩, -⟩ | ⟨⟨hs', -⟩, -⟩ | ⟨hs', -⟩
    · exact he
    all_goals simp [hs] at hs'

end Invariant

/-- Settles O46: the unit stays sound event by event, `rst_n` holds it, and the host's variables stay canonical. -/
theorem stepKeepsInvariant : Obligations.StepKeepsInvariant := by
  intro s t hinv h
  obtain ⟨-, -, -, hvars, -⟩ := step_next h
  exact ⟨(unitStep_of_step h).sound hinv.dev, held_of_step h, hvars hinv.vars⟩

/-- Settles O45: the unit is idle with no cycle left, and the host has no variable. -/
theorem resetMeetsInvariant : Obligations.ResetMeetsInvariant :=
  ⟨sound_reset, fun _ => rfl, rfl⟩

/-- Settles O41: State.reset holds these values as written, and the reads of the slots are computed from them. -/
theorem resetValues : Obligations.ResetValues := by
  refine ⟨rfl, rfl, ?_⟩
  decide

/-! ## Which events change a register -/

section Changes
variable {s : State} {d e : Device}

/-- The four error bits together say what every error flag is. -/
theorem err_congr (h1 : e.errIllop = d.errIllop) (h2 : e.errRsvd = d.errRsvd) (h3 : e.errOvr = d.errOvr)
    (h4 : e.errRange = d.errRange) (f : ErrFlag) : e.err f = d.err f := by
  cases f <;> assumption

theorem UnitStep.err_cleared {f : ErrFlag} (h : UnitStep s e) (hset : s.dev.err f = true) (hclr : e.err f = false) :
    s.resets ∨ ∃ v, s.hostWrites .status v ∧ v.getLsbD f.bit = true := by
  have kept : e.err f ≠ s.dev.err f := by simp [hset, hclr]
  cases h with
  | reset h => exact .inl h
  | writeStatus v hw => exact .inr ⟨v, hw, by simpa [err_clearW1C, hset] using hclr⟩
  | drop => simp [err_drop, hset] at hclr
  | reject => simp [err_reject, hset] at hclr
  | complete i d hc hi hd =>
    obtain ⟨-, -, -, -, -, -, h1, h2, h3, h4⟩ := resultOf_frame hd
    exact absurd (err_congr h1 h2 h3 h4 f) kept
  | keep | writeIe | writeArg | accept | cycle => exact absurd (err_congr rfl rfl rfl rfl f) kept

theorem UnitStep.results_changed (h : UnitStep s e) (hne : e.sin ≠ s.dev.sin ∨ e.cos ≠ s.dev.cos) :
    s.resets ∨ s.completes := by
  cases h with
  | reset h => exact .inl h
  | complete i d hc => exact .inr hc
  | _ => simp at hne

theorem busy_iff : d.busy = true ↔ d.estate = .run := by simp [Device.busy]

theorem busy_eq_false_iff : d.busy = false ↔ d.estate = .idle := by
  cases h : d.estate <;> simp [Device.busy, h]

theorem UnitStep.busy_set (h : UnitStep s e) (hidle : s.dev.estate = .idle) (hrun : e.estate = .run) :
    ∃ w, s.hostWrites .cmd w ∧ w.toNat < 4 := by
  cases h with
  | accept w i hw _ hi => exact ⟨w, hw, toNat_lt_of_decode hi⟩
  | reset | complete => cases hrun
  | _ => simp [hidle] at hrun

theorem UnitStep.busy_cleared (h : UnitStep s e) (hrun : s.dev.estate = .run) (hidle : e.estate = .idle) :
    s.resets ∨ s.completes := by
  cases h with
  | reset h => exact .inl h
  | complete i d hc => exact .inr hc
  | _ => simp [hrun] at hidle

theorem UnitStep.done_set (h : UnitStep s e) (hclr : s.dev.done = false) (hset : e.done = true) :
    s.completes ∨ ∃ w, s.hostWrites .cmd w ∧ s.dev.estate = .idle ∧ e.estate = .idle := by
  cases h with
  | complete i d hc => exact .inl hc
  | reject w f hw hidle => exact .inr ⟨w, hw, hidle, by simpa using hidle⟩
  | reset => cases hset
  | _ => simp [hclr] at hset

theorem UnitStep.done_cleared (h : UnitStep s e) (hset : s.dev.done = true) (hclr : e.done = false) :
    s.resets ∨ (∃ v, s.hostWrites .status v ∧ v.getLsbD 1 = true) ∨
      ∃ w, s.hostWrites .cmd w ∧ s.dev.estate = .idle ∧ e.estate = .run := by
  cases h with
  | reset h => exact .inl h
  | writeStatus v hw => exact .inr (.inl ⟨v, hw, by simpa [hset] using hclr⟩)
  | accept w i hw hidle => exact .inr (.inr ⟨w, hw, hidle, rfl⟩)
  | _ => simp [hset] at hclr

theorem UnitStep.lastop_changed (h : UnitStep s e) (hne : e.lastop ≠ s.dev.lastop) :
    s.resets ∨ ∃ w, s.hostWrites .cmd w ∧ s.dev.estate = .idle ∧ e.lastop = opField w := by
  cases h with
  | reset h => exact .inl h
  | reject w f hw hidle => exact .inr ⟨w, hw, hidle, by simp⟩
  | accept w i hw hidle hi => exact .inr ⟨w, hw, hidle, (opField_of_decode hi).symm⟩
  | complete i d hc hi hd =>
    obtain ⟨-, -, hlastop, -⟩ := resultOf_frame hd
    exact absurd hlastop hne
  | _ => simp at hne

theorem UnitStep.arg_changed (h : UnitStep s e) (hne : e.arg ≠ s.dev.arg) : s.resets ∨ s.hostWrites .arg e.arg := by
  cases h with
  | reset h => exact .inl h
  | writeArg v hw => exact .inr hw
  | complete i d hc hi hd =>
    obtain ⟨-, -, -, -, harg, -⟩ := resultOf_frame hd
    exact absurd harg hne
  | _ => simp at hne

theorem UnitStep.ie_changed (h : UnitStep s e) (hne : e.ie ≠ s.dev.ie) :
    s.resets ∨ ∃ v, s.hostWrites .ctrl v ∧ e.ie = v.getLsbD 0 := by
  cases h with
  | reset h => exact .inl h
  | writeIe v hw => exact .inr ⟨v, hw, rfl⟩
  | complete i d hc hi hd =>
    obtain ⟨-, -, -, -, -, hie, -⟩ := resultOf_frame hd
    exact absurd hie hne
  | _ => simp at hne

end Changes

/-- Settles O49, event by event: beside a reset only the STATUS write clears an error bit. -/
theorem errorBitsAreSticky : Obligations.ErrorBitsAreSticky :=
  fun _ _ _ h => (unitStep_of_step h).err_cleared

/-- Settles O51, event by event: beside a reset only completion writes SIN and COS. -/
theorem resultsChangeOnlyAtCompletionOrReset : Obligations.ResultsChangeOnlyAtCompletionOrReset :=
  fun _ _ h => (unitStep_of_step h).results_changed

/-- Settles O52: BUSY is ESTATE, which acceptance sets and completion and reset clear. -/
theorem busyChangesOnlyAsStated : Obligations.BusyChangesOnlyAsStated := by
  intro s t h
  simp only [busy_iff, busy_eq_false_iff]
  exact ⟨(unitStep_of_step h).busy_set, (unitStep_of_step h).busy_cleared⟩

/-- Settles O53, event by event: rejection leaves the unit idle and acceptance leaves it running. -/
theorem doneChangesOnlyAsStated : Obligations.DoneChangesOnlyAsStated :=
  fun _ _ h => ⟨(unitStep_of_step h).done_set, (unitStep_of_step h).done_cleared⟩

/-- Settles O54, event by event, for each of the three registers. -/
theorem lastopArgAndIeChangeOnlyAsStated : Obligations.LastopArgAndIeChangeOnlyAsStated :=
  fun _ _ h => ⟨(unitStep_of_step h).lastop_changed, (unitStep_of_step h).arg_changed, (unitStep_of_step h).ie_changed⟩

/-! ## No ARG hazard -/

section ArgWrite
variable {s : State} (v : Word)

/-- A completion reads OPND and not ARG (R25, R202). -/
theorem resultOf_writeArg (i : Instr) (d : Device) :
    resultOf i (d.writeArg v) = (resultOf i d).map (Device.writeArg v) := by
  cases i with
  | nop => rfl
  | fsincos => rfl
  | sin64rot => rfl
  | romrd =>
    simp only [resultOf, romrdResult, writeArg_opnd]
    split <;> rfl

/-- An inner cycle reads OPND, CX, CY, CZ, CI and REMAIN and not ARG (R25, R202). -/
theorem cycleOf_writeArg (i : Instr) (d : Device) : cycleOf i (d.writeArg v) = (cycleOf i d).writeArg v := by
  cases i with
  | nop => rfl
  | fsincos =>
    simp only [cycleOf, fsincosCycle, apply_ite (Device.writeArg v)]
    rfl
  | sin64rot => rfl
  | romrd => rfl

theorem finishCommand_writeArg (i : Instr) :
    finishCommand (resultOf i) (s.mapDev (Device.writeArg v)) =
      onNext (State.mapDev (Device.writeArg v)) (finishCommand (resultOf i) s) := by
  cases he : s.dev.estate with
  | idle => simp [finishCommand, he]
  | run =>
    cases hd : resultOf i s.dev with
    | none => simp [finishCommand, he, resultOf_writeArg, hd, onNext]
    | some d =>
      simp only [finishCommand, mapDev_dev, writeArg_estate, he, resultOf_writeArg, hd, Option.map_some]
      rfl

theorem cycleCommand_writeArg (i : Instr) :
    cycleCommand (resultOf i) (cycleOf i) (s.mapDev (Device.writeArg v)) =
      onNext (State.mapDev (Device.writeArg v)) (cycleCommand (resultOf i) (cycleOf i) s) := by
  by_cases hle : s.dev.remain ≤ 1
  · rw [cycleCommand_last hle, cycleCommand_last (by simpa using hle), finishCommand_writeArg]
  · cases he : s.dev.estate with
    | idle => simp [cycleCommand, he]
    | run =>
      simp only [cycleCommand, writeArg_estate, writeArg_remain, he, hle, if_false, State.mapDev, cycleOf_writeArg]
      rfl

end ArgWrite

/-- Settles O58: neither a completion nor an inner cycle reads or writes ARG. -/
theorem argWriteCommutesWithCompletion : Obligations.ArgWriteCommutesWithCompletion := by
  intro s v i hm
  have hmover : (s.mapDev (Device.writeArg v)).mover = s.mover := mover_congr rfl rfl rfl
  rw [exec_eq_runCommand, exec_eq_runCommand]
  rcases hm with hm | hm
  · rw [runCommand_engine (hmover.trans hm), runCommand_engine hm, finishCommand_writeArg]
  · rw [runCommand_clock (hmover.trans hm), runCommand_clock hm, cycleCommand_writeArg]

end Sys2Proof.Machine
end

section
/-! PROOFS. Bus (20_memory.md): the byte lanes of a word, which accesses the unit admits, what an admitted write does and when it
may be done twice, the two waits, the placed command word, and what no step changes of the platform. -/

namespace Sys2Proof.Machine

section Lanes
variable (w : Word)

/-- Lane `k` is the word's bits from 8k on (R55). -/
theorem byteLane_getLsbD (k : Fin 4) {j : Nat} (hj : j < 8) : (byteLane w k).getLsbD j = w.getLsbD (8 * k.val + j) := by
  simp [byteLane, hj]

/-- The lanes put together are the word: each join of two neighbours is one longer run of its bits (R55). -/
theorem wordOfLanes_byteLane : wordOfLanes (byteLane w 0) (byteLane w 1) (byteLane w 2) (byteLane w 3) = w := by
  show w.extractLsb' 24 8 ++ w.extractLsb' 16 8 ++ w.extractLsb' 8 8 ++ w.extractLsb' 0 8 = w
  have join {hi lo m n : Nat} (h : hi = lo + n) : w.extractLsb' hi m ++ w.extractLsb' lo n = w.extractLsb' lo (m + n) :=
    BitVec.extractLsb'_append_extractLsb'_eq_extractLsb' h
  rw [join (hi := 24) (lo := 16) rfl, join (hi := 16) (lo := 8) rfl, join (hi := 8) (lo := 0) rfl]
  exact BitVec.extractLsb'_eq_self

end Lanes

/-- Settles O5: the lanes are consecutive runs of the word's bits, and a command is decoded from the lanes joined. -/
theorem byteLanesCarryTheWord : Obligations.ByteLanesCarryTheWord :=
  fun w => ⟨fun k _ => byteLane_getLsbD w k, wordOfLanes_byteLane w, congrArg decodeWord (wordOfLanes_byteLane w)⟩

/-! ## Which accesses the unit admits -/

/-- Settles O37: the address is in the window, and `admit` rejects the size or the alignment. -/
theorem rejectedAccessIsABusError : Obligations.RejectedAccessIsABusError := by
  intro s addr size kind hr hlo hhi hbad
  have hrej : s.admits addr size = false := by
    rw [Bool.eq_false_iff, Ne, admits_iff]
    rintro ⟨hsize, hal, -⟩
    exact hbad.elim (· hsize) (· hal)
  exact busAccess_rejected hr ((inWindow_iff addr).2 ⟨hlo, hhi⟩) hrej

/-- Settles O38: the address is not in the window, so only the read data can differ. -/
theorem accessOutsideTheWindowIsUnseen : Obligations.AccessOutsideTheWindowIsUnseen := by
  intro s a hr hout
  have hw : s.inWindow a.addr = false := by
    rw [Bool.eq_false_iff, Ne, inWindow_iff]
    omega
  exact ⟨none, busAccess_outside hr hw⟩

section Writes
variable {s : State} {d : Device} {r : Reg} {v : Word}

/-- On the host's turn an admitted write of any slot, CMD included, answers a next state that differs in the unit and the read
data only (R53, R56). -/
theorem busAccess_write_host {addr size : Nat} (hr : s.rstN = true) (hm : s.mover = .host)
    (ha : s.admits addr size = true) :
    busAccess ⟨addr, size, .write v⟩ s = .next { s with rdata := none, dev := s.dev.write (regAt addr) v } := by
  have hm' : State.mover { s with rdata := none } = .host := (mover_congr rfl rfl rfl).trans hm
  rw [busAccess_write hr ha, writeReg_host _ _ hm']
  rfl

/-- A write of a register other than CMD does the same to the unit whoever moves (R141 to R145). -/
theorem busAccess_writeReg_of_ne_cmd (hr : s.rstN = true) (hne : r ≠ .cmd) :
    busAccess ⟨s.base + r.offset, 4, .write v⟩ s = .next { s with rdata := none, dev := s.dev.write r v } := by
  rw [busAccess_writeReg r hr]
  cases r with
  | cmd => exact absurd rfl hne
  | id | ctrl | status | arg | sin | cos | rsv1c => rfl

/-- A STATUS write clears the same bits again (R58, R142). -/
theorem clearW1C_clearW1C : (d.clearW1C v).clearW1C v = d.clearW1C v := by
  simp [Device.clearW1C]

/-- A CTRL write puts the unit in reset or sets IE, and either is the same twice (R58, R141). -/
theorem writeCtrl_writeCtrl : (d.writeCtrl v).writeCtrl v = d.writeCtrl v := by
  unfold Device.writeCtrl
  split <;> rfl

/-- Twice is once on the unit for R58's list, for STATUS and for a soft reset: for every slot but CMD. -/
theorem write_write_of_ne_cmd (hne : r ≠ .cmd) : (d.write r v).write r v = d.write r v := by
  cases r with
  | cmd => exact absurd rfl hne
  | ctrl => exact writeCtrl_writeCtrl
  | status => exact clearW1C_clearW1C
  | id | arg | sin | cos | rsv1c => rfl

end Writes

/-- Settles O39: a read answers the slot's value, and a write the unit as `Device.write` leaves it, whatever the slot. -/
theorem admittedAccessAnswers : Obligations.AdmittedAccessAnswers := by
  intro s addr kind hr hm hal hlo hhi
  have ha : s.admits addr 4 = true := (admits_iff addr 4).2 ⟨rfl, hal, hlo, hhi⟩
  cases kind with
  | read => exact ⟨_, busAccess_read hr ha, rfl, rfl, rfl, rfl, rfl, nofun⟩
  | write v => exact ⟨_, busAccess_write_host hr hm ha, rfl, rfl, rfl, rfl, rfl, fun _ _ => rfl⟩

/-- Settles O40: each of the offsets is a register other than CMD, whose write leaves the unit as once when it is done twice. The
clause on bit 1 of a CTRL write is not needed: a soft reset done twice also leaves what it left once. -/
theorem writesWithoutSideEffectsAreIdempotent : Obligations.WritesWithoutSideEffectsAreIdempotent := by
  intro s v off t hr _ hoff h
  obtain ⟨r, rfl, hne⟩ : ∃ r : Reg, off = r.offset ∧ r ≠ .cmd := by
    rcases hoff with rfl | ⟨rfl, -⟩ | rfl | rfl | rfl | rfl | rfl
    · exact ⟨.id, rfl, nofun⟩
    · exact ⟨.ctrl, rfl, nofun⟩
    · exact ⟨.status, rfl, nofun⟩
    · exact ⟨.arg, rfl, nofun⟩
    · exact ⟨.sin, rfl, nofun⟩
    · exact ⟨.cos, rfl, nofun⟩
    · exact ⟨.rsv1c, rfl, nofun⟩
  rw [busAccess_writeReg_of_ne_cmd hr hne] at h
  injection h with ht
  have hr' : t.rstN = true := by rw [← ht]; exact hr
  rw [busAccess_writeReg_of_ne_cmd hr' hne, ← ht]
  simp only [write_write_of_ne_cmd hne]

/-! ## The waits -/

section Waits
variable {s : State} {k : HostProg}

/-- Bit 1 of STATUS is DONE (R24). -/
theorem statusWord_getLsbD_one (d : Device) : d.statusWord.getLsbD 1 = d.done := by
  unfold Device.statusWord
  rw [BitVec.getLsbD_append, if_neg (by decide), BitVec.getLsbD_append, if_pos (by decide)]
  simp

theorem hostStatement_wait (hp : s.prog = .wait k) :
    hostStatement s = onNext (endWait k) (busAccess (s.readOf (.reg .status)) s) := by
  simp [hostStatement, hp]

theorem hostStatement_waitIrq (hp : s.prog = .waitIrq k) :
    hostStatement s = .next (if s.dev.irq then { s with prog := k } else s) := by
  simp [hostStatement, hp]

/-- After a read of STATUS the wait ends exactly when DONE = 1 (R61 (a), R77). -/
theorem endWait_statusWord (hp : s.prog = .wait k) :
    endWait k { s with rdata := some s.dev.statusWord } =
      { s with rdata := some s.dev.statusWord, prog := if s.dev.done then k else .wait k } := by
  simp only [endWait, statusWord_getLsbD_one]
  split
  · rfl
  · rw [← hp]

end Waits

/-- Settles O10: WAIT is one STATUS read whose bit 1 is DONE, and the other wait looks at `irq`, which is IE AND DONE. -/
theorem waitEndsWhenDone : Obligations.WaitEndsWhenDone := by
  intro s k hr hm
  refine ⟨fun hp => ?wait, fun hp => ?waitIrq⟩
  case wait =>
    have hread : busAccess (s.readOf (.reg .status)) s = .next { s with rdata := some s.dev.statusWord } :=
      busAccess_readReg .status hr
    rw [step_host hr hm, hostStatement_wait hp, hread, onNext_next, endWait_statusWord hp]
    rfl
  case waitIrq =>
    rw [step_host hr hm, hostStatement_waitIrq hp, onNext_next]
    simp only [Device.irq, Bool.and_eq_true]
    split
    · rfl
    · rw [← hp]
      rfl

/-! ## The placed word, and the platform -/

section PlacedWord
variable (i : Instr)

@[simp] theorem decodeWord_encode : decodeWord (encode i) = .instr i := by cases i <;> decide

/-- The number that `withFetchWord` places for a command is written to the bus as the command's word. -/
theorem asU32_tableBits_encode : asU32 (tableBits 32 (encode i).toNat : Nat) = encode i := by
  rw [tableBits, Nat.mod_eq_of_lt (encode i).isLt, asU32, BitVec.ofInt_natCast, BitVec.ofNat_toNat, BitVec.setWidth_eq]

end PlacedWord

/-- A host write to CMD's address of a word that decodes to a command runs that command (R144, R162). -/
theorem hostStatement_write_cmd {s : State} {tg : Target} {e : HostExpr} {k : HostProg} {i : Instr} (hr : s.rstN = true)
    (hp : s.prog = .write tg e k) (htg : s.targetAddr tg = (s.base + Reg.cmd.offset, 4))
    (hd : decodeWord (asU32 (s.value e)) = .instr i) :
    hostStatement s = exec i { s with prog := k, rdata := none, draws := s.draws + 1 } := by
  have hcmd : s.writeOf tg (asU32 (s.value e)) = ⟨(s.goOn k).base + Reg.cmd.offset, 4, .write (asU32 (s.value e))⟩ := by
    simp only [State.writeOf, htg]
    rfl
  rw [hostStatement_write hp, hcmd, busAccess_writeReg (s := s.goOn k) .cmd hr]
  simp only [writeReg, presentWord, hd]
  rfl

/-- Settles O8: the placed statement is a CMD write of the command's word, on the host's turn and with `rst_n` released. -/
theorem placedWordRunsNext : Obligations.PlacedWordRunsNext := by
  intro s i
  have hword : decodeWord (asU32 (tableBits 32 (encode i).toNat : Nat)) = .instr i := by
    rw [asU32_tableBits_encode, decodeWord_encode]
  rw [step_host rfl (mover_of_turns _ rfl), hostStatement_write_cmd (s := s.withFetchWord 32 _) rfl rfl rfl hword]
  rfl

/-- Settles O56: it is the frame of `step_next`. -/
theorem stepKeepsPlatform : Obligations.StepKeepsPlatform := by
  intro s t h
  obtain ⟨hwindow, hturns, hrst, -⟩ := step_next h
  exact ⟨hwindow, hrst, hturns⟩

end Sys2Proof.Machine
end

section
/-! PROOFS. Encoding (30_encoding.md): what a word decodes to from its two fields, that decoding and encoding are inverse, the
words of the opcode table, and the host statements that make no bus access. -/

namespace Sys2Proof.Machine

/-! ## The fields of a word decide what it decodes to -/

section Fields
variable {v w : Word} {i : Instr}

theorem opField_toNat (w : Word) : (opField w).toNat = w.toNat % 16 := by
  rw [opField_eq_ofNat, BitVec.toNat_ofNat, Nat.mod_mod]

/-- OP and RSVD cover every bit of a word (R70). -/
theorem eq_of_fields (hop : opField v = opField w) (hrsvd : rsvdField v = rsvdField w) : v = w := by
  have join (u : Word) : rsvdField u ++ opField u = u :=
    (BitVec.extractLsb'_append_extractLsb'_eq_extractLsb' (w := 28 + 4) rfl).trans BitVec.extractLsb'_eq_self
  rw [← join v, ← join w, hop, hrsvd]

/-- The assigned opcodes are the numbers below 4 (R71). -/
theorem exists_opcodeOf {op : BitVec 4} (h : op.toNat < 4) : ∃ i, op = opcodeOf i := by
  obtain ⟨i, hi⟩ := Option.ne_none_iff_exists'.1 (mt instrOfOp_eq_none.1 (not_le.2 h))
  exact ⟨i, instrOfOp_eq_some.1 hi⟩

/-- The first check of R72. -/
theorem decodeWord_of_unassigned (h : 4 ≤ (opField w).toNat) : decodeWord w = .illegalOp (opField w) := by
  simp [decodeWord, instrOfOp_eq_none.2 h]

/-- The second check of R72, once the opcode is an assigned one. -/
theorem decodeWord_of_opcode (h : opField w = opcodeOf i) :
    decodeWord w = if rsvdField w = 0 then .instr i else .reservedBits (opField w) := by
  simp [decodeWord, instrOfOp_eq_some.2 h]

/-- A word that passes both checks of R72 decodes to its opcode's command; the fields are taken by division and remainder. -/
theorem decodeWord_of_div_mod (hrsvd : w.toNat / 16 = 0) (hop : w.toNat % 16 = (opcodeOf i).toNat) :
    decodeWord w = .instr i := by
  have hi : opField w = opcodeOf i := BitVec.eq_of_toNat_eq ((opField_toNat w).trans hop)
  rw [decodeWord_of_opcode hi, if_pos ((rsvdField_eq_zero w).2 hrsvd)]

end Fields

/-! ## Decode and encode -/

section DecodeEncode
variable {w : Word} {i : Instr}

/-- A word that decodes to a command has the fields of that command's word, so it is that word (R71, R75). -/
theorem decodeWord_eq_instr : decodeWord w = .instr i ↔ w = encode i := by
  refine ⟨fun h => ?_, fun h => h ▸ decodeWord_encode i⟩
  have he : decodeWord (encode i) = .instr i := decodeWord_encode i
  exact eq_of_fields ((opField_of_decode h).trans (opField_of_decode he).symm)
    ((rsvdField_of_decode h).trans (rsvdField_of_decode he).symm)

theorem wellFormedWord_iff_fields : wellFormedWord w = true ↔ (opField w).toNat < 4 ∧ rsvdField w = 0 := by
  simp [wellFormedWord, opAssigned, rsvdZero, opField, rsvdField]

/-- The two checks on a word pass exactly when it decodes to a command (R75). -/
theorem wellFormedWord_iff_decode : wellFormedWord w = true ↔ ∃ i, decodeWord w = .instr i := by
  rw [wellFormedWord_iff_fields]
  constructor
  · rintro ⟨hop, hrsvd⟩
    obtain ⟨i, hi⟩ := exists_opcodeOf hop
    exact ⟨i, by rw [decodeWord_of_opcode hi, if_pos hrsvd]⟩
  · rintro ⟨i, hi⟩
    exact ⟨opField_of_decode hi ▸ opcodeOf_toNat_lt i, rsvdField_of_decode hi⟩

/-- A table word gives a command exactly when it fits one bus word and that word decodes to the command (R76). -/
theorem decodeTableWord_eq_some {nbits n : Nat} : decodeTableWord nbits n = some i ↔
    tableBits nbits n < 2 ^ 32 ∧ decodeWord (BitVec.ofNat 32 (tableBits nbits n)) = .instr i := by
  unfold decodeTableWord
  split
  · next hlt =>
    rw [and_iff_right hlt]
    cases decodeWord (BitVec.ofNat 32 (tableBits nbits n)) <;> simp
  · next hge => exact iff_of_false nofun fun ⟨hlt, _⟩ => hge hlt

end DecodeEncode

/-- Settles O3: a word is determined by its fields, and both checks on them pass exactly when the word decodes to a command. -/
theorem decodeIffEncode : Obligations.DecodeIffEncode := by
  intro w i
  refine ⟨decodeWord_eq_instr, ?_⟩
  simp only [wellFormedWord_iff_decode, decodeWord_eq_instr]

/-- Settles O2: the remainder by 16 is OP, which is checked first, and the quotient is zero exactly when RSVD is. -/
theorem decodeChecksOpcodeThenReservedBits : Obligations.DecodeChecksOpcodeThenReservedBits := by
  intro w
  refine ⟨fun hop => ?unassigned, fun hop hrsvd => ?reserved, decodeWord_of_div_mod (i := .nop),
    decodeWord_of_div_mod (i := .fsincos), decodeWord_of_div_mod (i := .sin64rot), decodeWord_of_div_mod (i := .romrd)⟩
  case unassigned =>
    rw [← opField_eq_ofNat]
    exact decodeWord_of_unassigned (opField_toNat w ▸ hop)
  case reserved =>
    obtain ⟨i, hi⟩ := exists_opcodeOf (opField_toNat w ▸ hop)
    rw [← opField_eq_ofNat, decodeWord_of_opcode hi, if_neg (mt (rsvdField_eq_zero w).1 hrsvd)]

/-- Settles O4: below 2^32 a number is its 32-bit word, and a command's word is such a number. -/
theorem tableWordDecodesIffEncoded : Obligations.TableWordDecodesIffEncoded := by
  intro nbits n i
  rw [decodeTableWord_eq_some, decodeWord_eq_instr, ← tableBits]
  constructor
  · rintro ⟨hlt, hw⟩
    rw [← hw, BitVec.toNat_ofNat, Nat.mod_eq_of_lt hlt]
  · intro hn
    rw [hn, BitVec.ofNat_toNat, BitVec.setWidth_eq]
    exact ⟨(encode i).isLt, rfl⟩

/-- Settles O1: each word is evaluated. -/
theorem writtenOutWordsDecode : Obligations.WrittenOutWordsDecode := by
  unfold Obligations.WrittenOutWordsDecode
  decide

/-! ## Host statements without a bus access (R77) -/

section Computation
variable {s : State} {x : HostVar} {e a b : HostExpr} {c : HostCond} {body k : HostProg}

theorem hostStatement_done (hp : s.prog = .done) : hostStatement s = .next s := by
  simp [hostStatement, hp]

theorem hostStatement_assign (hp : s.prog = .assign x e k) :
    hostStatement s = .next { s.goOn k with vars := bindVar x (s.value e) s.vars } := by
  simp [hostStatement, hp]

theorem hostStatement_loop_enter (hp : s.prog = .loop x a b body k) (hle : s.value a ≤ s.value b) :
    hostStatement s = .next
      { s.goOn (body.append (.loop x (.lit (s.value a + 1)) (.lit (s.value b)) body k)) with
        vars := bindVar x (s.value a) s.vars } := by
  simp [hostStatement, hp, hle]

theorem hostStatement_loop_pass (hp : s.prog = .loop x a b body k) (hlt : s.value b < s.value a) :
    hostStatement s = .next (s.goOn k) := by
  simp [hostStatement, hp, not_le.2 hlt]

theorem hostStatement_cond (hp : s.prog = .cond c body k) :
    hostStatement s = .next (s.goOn (if s.holds c = true then body.append k else k)) := by
  simp [hostStatement, hp]

end Computation

/-- Settles O60: each clause is one host statement, and the bound variable is read back by the laws of `bindVar`. -/
theorem hostComputationSteps : Obligations.HostComputationSteps := by
  intro s k hr hm
  rw [step_host hr hm]
  refine ⟨fun hp => ?done, fun x e hp => ?assign, fun x a b body hp hle => ?enter, fun x a b body hp hlt => ?pass,
    fun c body hp => ?cond⟩
  case done =>
    rw [hostStatement_done hp]
    rfl
  case assign =>
    rw [hostStatement_assign hp]
    exact ⟨_, rfl, lookupVar_bindVar_same _ _ _, fun y hy => lookupVar_bindVar_other x y _ _ hy⟩
  case enter =>
    rw [hostStatement_loop_enter hp hle]
    exact ⟨_, rfl, lookupVar_bindVar_same _ _ _, fun y hy => lookupVar_bindVar_other x y _ _ hy⟩
  case pass =>
    rw [hostStatement_loop_pass hp hlt]
    rfl
  case cond =>
    rw [hostStatement_cond hp]
    rfl

end Sys2Proof.Machine
end

section
/-! PROOFS. FSINCOS, SIN64ROT and ROMRD (40_trig_ops.md): the CORDIC function against its pseudocode and its accuracy, the folded
table, what each command leaves at completion, ROMRD's rejection, and that a running command always reaches its completion. -/

namespace Sys2Proof.Machine

/-! ## The normalised phase -/

/-- The clauses of R102 on integers are those of the bit vectors. -/
theorem normalise_toRef (p : Word) : (normalise p).toRef = refNormalise p.toNat := by
  have hgain : refS32 (0 - -1304065735) = 1304065735 := by decide
  rcases normalise_cases p with ⟨h, hn⟩ | ⟨h, h', hn⟩ | ⟨h, hn⟩ <;> rw [hn, refNormalise]
  · rw [if_pos (by omega), hgain, Int.emod_eq_of_lt (by omega) (by omega)]
  · rw [if_neg (by omega), if_pos (by omega), Int.emod_eq_of_lt (by omega) (by omega)]
  · rw [if_neg (by omega), if_neg (by omega), hgain, Int.emod_eq_of_lt (by omega) (by omega)]

/-- Settles O25: each clause is a case of `normalise_cases`, read field by field. -/
theorem quadrantNormalisation : Obligations.QuadrantNormalisation := by
  intro p
  have fields {a z : Int} (hn : (normalise p).toRef = { x := a, y := 0, z := z }) :
      (normalise p).y = 0 ∧ (normalise p).x.toInt = a ∧ ((normalise p).z.toNat : Int) = z :=
    ⟨BitVec.toInt_inj.1 (congrArg RefVec.y hn), congrArg RefVec.x hn, congrArg RefVec.z hn⟩
  have hp := p.isLt
  rcases normalise_cases p with ⟨h, hn⟩ | ⟨h, h', hn⟩ | ⟨h, hn⟩ <;> obtain ⟨hy, hx, hz⟩ := fields hn <;>
    exact ⟨hy, by omega, fun _ => by omega, fun _ _ => by omega, fun _ => by omega⟩

/-! ## The rotations on integers -/

/-- Settles O27: no table entry is above 0x1FFFFFFF, so neither the difference nor the sum leaves the 32 bits. -/
theorem angleAccumulatorNeverWraps : Obligations.AngleAccumulatorNeverWraps := by
  intro i v hi
  have ha : (atanRom[i]).toNat ≤ 0x1FFFFFFF := atanRom_le ⟨i, hi⟩
  refine ⟨atanRom[i], Vector.getElem?_eq_getElem hi, fun hz => ?above, fun hz => ?below⟩
  case above =>
    rw [rotateStep_of_lt hi, rotateBy_z, if_pos ((qtr_le _).2 hz), BitVec.toNat_sub_of_le (BitVec.le_def.2 (by omega))]
    omega
  case below =>
    rw [rotateStep_of_lt hi, rotateBy_z, if_neg (by rw [qtr_le]; omega), BitVec.toNat_add_of_lt (by omega)]
    omega

/-- The comparison of R103 on integers. -/
theorem qtr_le_iff_toRef (v : Vec) : qtr ≤ v.z ↔ v.toRef.z ≥ 1073741823 := by
  rw [qtr_le]
  exact Int.ofNat_le.symm

/-- One rotation of any vector is the rotation of R103 on integers, wraps included (R12). -/
theorem rotateBy_toRef (i : Nat) (a : Word) (v : Vec) : (rotateBy i a v).toRef = refRotate i a.toNat v.toRef := by
  have ha := a.isLt
  have hz := v.z.isLt
  unfold rotateBy refRotate
  by_cases hc : qtr ≤ v.z
  · rw [if_pos hc, if_pos ((qtr_le_iff_toRef v).1 hc)]
    simp only [Vec.toRef, BitVec.toInt_sub, BitVec.toInt_add, sshiftRight_toInt, BitVec.toNat_sub, refS32_eq_bmod,
      RefVec.mk.injEq, true_and]
    omega
  · rw [if_neg hc, if_neg (mt (qtr_le_iff_toRef v).2 hc)]
    simp only [Vec.toRef, BitVec.toInt_sub, BitVec.toInt_add, sshiftRight_toInt, BitVec.toNat_add, refS32_eq_bmod,
      RefVec.mk.injEq, true_and]
    omega

theorem refLoop_append_singleton (i : Nat) (l : List Word) (a : Word) (v : RefVec) :
    refLoop i (l ++ [a]) v = refRotate (i + l.length) a.toNat (refLoop i l v) := by
  induction l generalizing i v with
  | nil => rfl
  | cons b l ih =>
    rw [List.cons_append, refLoop, ih, refLoop, List.length_cons, Nat.add_right_comm, Nat.add_assoc]

/-- The first `n` rotations follow the loop of R103 along the first `n` table entries. -/
theorem rotations_toRef_eq_refLoop (v : Vec) (n : Nat) (hn : n ≤ 31) :
    (rotations n v).toRef = refLoop 0 (atanRom.toList.take n) v.toRef := by
  induction n with
  | zero => rfl
  | succ n ih =>
    have hlen : n < atanRom.toList.length := by simpa using hn
    rw [rotations, rotateStep_of_lt hn, rotateBy_toRef, ih (by omega), ← List.take_concat_get' _ n hlen,
      refLoop_append_singleton, List.length_take_of_le hlen.le, Nat.zero_add, Vector.getElem_toList]

theorem cordicVec_eq_rotations (p : Word) : cordicVec p = rotations 31 (normalise p) := by
  unfold cordicVec
  rfl

/-- Settles O26: the normalised phase and then each rotation agree with the pseudocode. -/
theorem cordicMatchesIntegerPseudocode : Obligations.CordicMatchesIntegerPseudocode := by
  intro p
  have hvec : (cordicVec p).toRef = refLoop 0 atanRom.toList (refNormalise p.toNat) := by
    rw [cordicVec_eq_rotations, rotations_toRef_eq_refLoop _ 31 le_rfl, List.take_of_length_le (by simp), normalise_toRef]
  rw [refCordic, ← hvec]
  rfl

/-! ## The residual angle -/

/-- The least angle still to turn after `n` steps, for z - QTR from -QTR on: a step from below 0 adds its table entry, and one
from 0 on subtracts it. -/
def residualLow : Nat → Int
  | 0 => -1073741823
  | n + 1 => min (-atanInt n) (residualLow n + atanInt n)

/-- The greatest angle still to turn after `n` steps. -/
def residualHigh : Nat → Int
  | 0 => 1073741822
  | n + 1 => max (residualHigh n - atanInt n) (atanInt n - 1)

theorem exactFrom_residual {v : RefVec} (h1 : 0 ≤ v.z) (h2 : v.z ≤ 2147483645) (n : Nat) :
    residualLow n ≤ (exactFrom n 0 v).z - 1073741823 ∧ (exactFrom n 0 v).z - 1073741823 ≤ residualHigh n := by
  induction n with
  | zero => simp only [residualLow, residualHigh, exactFrom]; omega
  | succ n ih =>
    rw [exactFrom_zero_succ, exactRotate, residualLow, residualHigh]
    split <;> simp only <;> omega

theorem residual_last : residualLow 31 = -10 ∧ residualHigh 31 = 9 := by decide +kernel

/-- Settles O28: the bounds on the angle narrow step by step to -10 and 9, and the accuracy is `cordic_meetsAccuracy`. -/
theorem residualAngleIsSmall : Obligations.ResidualAngleIsSmall := by
  refine ⟨fun p => ?_, fsincosResult_meetsAccuracy⟩
  obtain ⟨-, hz, -⟩ := quadrantNormalisation p
  have hvec : (cordicVec p).toRef = exactFrom 31 0 (normalise p).toRef := by
    rw [cordicVec_eq_rotations, rotations_toRef p 31 le_rfl]
  have hlast : ((cordicVec p).z.toNat : Int) = (exactFrom 31 0 (normalise p).toRef).z := congrArg RefVec.z hvec
  have hres := exactFrom_residual (v := (normalise p).toRef) (by simp [Vec.toRef]) (by simp only [Vec.toRef]; omega) 31
  rw [residual_last.1, residual_last.2] at hres
  exact ⟨by omega, by omega, cordic_meetsAccuracy p⟩

/-! ## The folded table -/

section Fold
variable {n : BitVec 6} {i : Nat} {a b : Word}

/-- The lower half of R111. -/
theorem fold_lower (h : n.toNat < 32) :
    ∃ a b, sin64Rom[n.toNat]? = some a ∧ sin64Rom[32 - n.toNat]? = some b ∧ fold n = (a, b) :=
  ⟨_, _, Vector.getElem?_eq_getElem (by omega), Vector.getElem?_eq_getElem (by omega), by rw [fold, dif_pos h]⟩

/-- The upper half of R111. -/
theorem fold_upper (h : 32 ≤ n.toNat) :
    ∃ a b, sin64Rom[64 - n.toNat]? = some a ∧ sin64Rom[n.toNat - 32]? = some b ∧ fold n = (a, -b) :=
  have := n.isLt
  ⟨_, _, Vector.getElem?_eq_getElem (by omega), Vector.getElem?_eq_getElem (by omega), by rw [fold, dif_neg (by omega)]⟩

/-- The quarter period rises from 0 and stays non-negative: only its first entry is 0 (R32). -/
theorem sin64Rom_sign (h : sin64Rom[i]? = some a) : 0 ≤ a.toInt ∧ (0 < a.toInt ↔ i ≠ 0) := by
  have table : ∀ j : Fin 33, 0 ≤ (sin64Rom[j.val]).toInt ∧ (0 < (sin64Rom[j.val]).toInt ↔ j.val ≠ 0) := by decide
  obtain ⟨hi, rfl⟩ := Vector.getElem?_eq_some_iff.1 h
  exact table ⟨i, hi⟩

/-- Negating a table entry does not overflow (R111). -/
theorem sin64Rom_neg_toInt (h : sin64Rom[i]? = some a) : (-a).toInt = -a.toInt := by
  have := (sin64Rom_sign h).1
  exact BitVec.toInt_neg_of_ne_intMin fun hmin => by subst hmin; revert this; decide

end Fold

/-- Sine and cosine of one angle of the quarter period: their squares add to 2^62 within 2^33 (R113). -/
theorem sin64Rom_norm_table : ∀ j : Fin 33,
    (sin64Rom[j.val]).toInt ^ 2 + (sin64Rom[32 - j.val]).toInt ^ 2 ≤ 2 ^ 62 + 2 ^ 33 ∧
    2 ^ 62 - 2 ^ 33 ≤ (sin64Rom[j.val]).toInt ^ 2 + (sin64Rom[32 - j.val]).toInt ^ 2 := by
  decide

theorem sin64Rom_norm {i : Nat} {a b : Word} (ha : sin64Rom[i]? = some a) (hb : sin64Rom[32 - i]? = some b) :
    a.toInt ^ 2 + b.toInt ^ 2 ≤ 2 ^ 62 + 2 ^ 33 ∧ 2 ^ 62 - 2 ^ 33 ≤ a.toInt ^ 2 + b.toInt ^ 2 := by
  obtain ⟨-, rfl⟩ := Vector.getElem?_eq_some_iff.1 ha
  obtain ⟨-, rfl⟩ := Vector.getElem?_eq_some_iff.1 hb
  exact sin64Rom_norm_table ⟨i, by omega⟩

/-- Settles O29: the two halves of `fold`, and no table entry is the least s32 value. -/
theorem foldingRule : Obligations.FoldingRule := by
  refine fun n => ⟨fun h => ?lower, fun h => ?upper⟩
  case lower =>
    obtain ⟨a, b, ha, hb, hf⟩ := fold_lower h
    rw [hf]
    exact ⟨ha, hb⟩
  case upper =>
    obtain ⟨a, b, ha, hb, hf⟩ := fold_upper h
    rw [hf, hb, Option.map_some, sin64Rom_neg_toInt hb, neg_neg]
    exact ⟨ha, rfl⟩

/-- Settles O30: no table entry is negative, and only the first, which N = 32 takes for the cosine, is 0. -/
theorem foldedSignsAndIgnoredBits : Obligations.FoldedSignsAndIgnoredBits := by
  intro a b
  rw [← angleIndexOf_toNat, ← angleIndexOf_toNat]
  suffices ∀ n : BitVec 6, 0 ≤ (fold n).1.toInt ∧ ((fold n).2.toInt < 0 ↔ 32 < n.toNat) from
    ⟨(this _).1, (this _).2, fun h => congrArg fold (BitVec.eq_of_toNat_eq h)⟩
  intro n
  rcases lt_or_ge n.toNat 32 with h | h
  · obtain ⟨s, c, hs, hc, hf⟩ := fold_lower h
    have hcos := (sin64Rom_sign hc).1
    rw [hf]
    exact ⟨(sin64Rom_sign hs).1, by dsimp only; omega⟩
  · obtain ⟨s, c, hs, hc, hf⟩ := fold_upper h
    have hcos := (sin64Rom_sign hc).2
    rw [hf, sin64Rom_neg_toInt hc]
    exact ⟨(sin64Rom_sign hs).1, by omega⟩

/-- Settles O31: in either half the pair is sine and cosine of one table angle, up to the sign of the cosine. -/
theorem foldedPairHasUnitNorm : Obligations.FoldedPairHasUnitNorm := by
  intro n
  rcases lt_or_ge n.toNat 32 with h | h
  · obtain ⟨a, b, ha, hb, hf⟩ := fold_lower h
    rw [hf]
    exact sin64Rom_norm ha hb
  · obtain ⟨a, b, ha, hb, hf⟩ := fold_upper h
    have hindex : n.toNat - 32 = 32 - (64 - n.toNat) := by omega
    rw [hf, sin64Rom_neg_toInt hb, neg_sq]
    exact sin64Rom_norm ha (hindex ▸ hb)

/-! ## Completion and rejection -/

section Commands
variable {s : State} {d : Device} {i : Instr} {a : Word}

/-- On the engine's turn a running command writes its result and ends (R166). -/
theorem exec_engine (hm : s.mover = .engine) (hrun : s.dev.estate = .run) (hd : resultOf i s.dev = some d) :
    exec i s = .next { s with dev := d.endCommand } := by
  rw [exec_eq_runCommand, runCommand_engine hm, finishCommand_run hrun hd]

/-- `s32` of the integer negation is the negation of the word (R10). -/
theorem ofInt_zero_sub_toInt (b : Word) : BitVec.ofInt 32 (0 - b.toInt) = -b := by
  rw [zero_sub, BitVec.ofInt_neg, BitVec.ofInt_toInt]

/-- ROMRD's result is the word of the table that bit 8 of OPND selects (R120). -/
theorem romrdResult_of_romWord (h : romWord (romSelOf d.opnd) (romIdxOf d.opnd) = some a) :
    romrdResult d = some (d.writeResults a 0) := by
  simp [romrdResult, h]

/-- SEL = 0 selects SIN64_ROM and SEL = 1 ATAN_ROM, at the index OPND[5:0] (R73, R120). -/
theorem romWord_operand (w : Word) : romWord (romSelOf w) (romIdxOf w) =
    if w.toNat / 256 % 2 = 1 then atanRom[w.toNat % 64]? else sin64Rom[w.toNat % 64]? := by
  simp [romWord, romSelOf_eq, romIdxOf_toNat]

end Commands

/-- Settles O18: it is the completion that writes `fsincosResult`. -/
theorem fsincosCompletes : Obligations.FsincosCompletes :=
  fun _ hm hrun => exec_engine (i := .fsincos) hm hrun rfl

/-- Settles O19: the completion writes the folded pair, which is one half of R111 or the other. -/
theorem sin64rotCompletes : Obligations.Sin64rotCompletes := by
  intro s a b hm hrun
  have hexec : exec .sin64rot s = .next { s with dev := (sin64rotResult s.dev).endCommand } := exec_engine hm hrun rfl
  rw [hexec, sin64rotResult, ← angleIndexOf_toNat]
  refine ⟨fun h ha hb => ?lower, fun h ha hb => ?upper⟩
  case lower =>
    obtain ⟨_, _, ha', hb', hf⟩ := fold_lower h
    cases ha'.symm.trans ha
    cases hb'.symm.trans hb
    rw [hf]
    rfl
  case upper =>
    obtain ⟨_, _, ha', hb', hf⟩ := fold_upper h
    cases ha'.symm.trans ha
    cases hb'.symm.trans hb
    rw [hf, ofInt_zero_sub_toInt]
    rfl

/-- Settles O20: either table gives `romWord` of the operand. -/
theorem romrdCompletes : Obligations.RomrdCompletes := by
  intro s a hm hrun h
  have hword : romWord (romSelOf s.dev.opnd) (romIdxOf s.dev.opnd) = some a := by
    rw [romWord_operand]
    rcases h with ⟨hsel, ha⟩ | ⟨hsel, ha⟩
    · rwa [if_neg (by omega)]
    · rwa [if_pos hsel]
  exact exec_engine (i := .romrd) hm hrun (romrdResult_of_romWord hword)

/-- Settles O16: the range test fails, so presenting the command rejects it with ERR_RANGE. -/
theorem romrdOutOfRangeIsRejected : Obligations.RomrdOutOfRangeIsRejected := by
  intro s hm hidle h
  have hrange : romInRange s.dev.arg = false := by
    rw [← romWord_isSome, romWord_operand, Option.isSome_eq_false_iff, Option.isNone_iff_eq_none]
    rcases h with ⟨hsel, hidx⟩ | ⟨hsel, hidx⟩
    · rw [if_neg (by omega), Vector.getElem?_eq_none hidx]
    · rw [if_pos hsel, Vector.getElem?_eq_none hidx]
  have herr : errorOf .romrd s.dev = some .range := by simp [errorOf, romrdError, hrange]
  rw [exec_eq_runCommand, runCommand_host hm, herr, State.mapDev, present_of_error hidle]
  rfl

/-! ## A running command reaches its completion -/

section Progress
variable {s : State} {d : Device} {i : Instr}

/-- A sound running unit holds a command that computes a result (R121, R166 "It cannot fail"). -/
theorem Device.Sound.result (h : d.Sound) (hrun : d.estate = .run) :
    ∃ i e, d.oplatch = opcodeOf i ∧ resultOf i d = some e := by
  obtain ⟨i, hi⟩ := exists_opcodeOf h.latch
  refine ⟨i, ?_⟩
  cases i with
  | nop => exact ⟨_, hi, rfl⟩
  | fsincos => exact ⟨_, hi, rfl⟩
  | sin64rot => exact ⟨_, hi, rfl⟩
  | romrd =>
    have hsome : (romWord (romSelOf d.opnd) (romIdxOf d.opnd)).isSome = true := by
      rw [romWord_isSome]
      exact h.range hrun hi
    obtain ⟨w, hw⟩ := Option.isSome_iff_exists.1 hsome
    exact ⟨_, hi, romrdResult_of_romWord hw⟩

/-- A step that completes the latched command writes its result (R166). -/
theorem step_of_completes (hc : s.completes) (hi : s.dev.oplatch = opcodeOf i) (hd : resultOf i s.dev = some d) :
    step s = .next { s with dev := d.endCommand, turns := s.turns.tail } := by
  obtain ⟨hr, hrun, hm⟩ := id hc
  rw [step_engine hr (hm.imp_right And.left), engineStep_run hrun (instrOfOp_eq_some.2 hi), exec_of_completes i hc,
    finishCommand_run hrun hd]
  rfl

/-- A clock cycle before the last does the latched command's inner work (R210). -/
theorem step_clock_before_last (hr : s.rstN = true) (hm : s.mover = .clock) (hrun : s.dev.estate = .run)
    (hlt : 1 < s.dev.remain) (hi : s.dev.oplatch = opcodeOf i) :
    step s = .next { s with
      dev := { cycleOf i s.dev with remain := s.dev.remain - 1 }, turns := s.turns.tail } := by
  rw [step_engine hr (.inr hm), engineStep_run hrun (instrOfOp_eq_some.2 hi), exec_clock_before_last i hm hrun hlt]
  rfl

end Progress

/-! ## Every safe state steps on -/

section Answers
variable {s : State} {f : State → State} {o : Result}

theorem onNext_answers (h : ∃ t, o = .next t) : ∃ t, onNext f o = .next t :=
  h.imp' f fun _ ht => congrArg (onNext f) ht

/-- A safe host's next statement answers: its access, if it makes one, is no bus error, and computation always has a value. -/
theorem hostStatement_answers (hm : s.mover = .host) (hsafe : s.hostSafe) : ∃ t, hostStatement s = .next t := by
  obtain ⟨hr, hacc⟩ := hsafe
  -- Before its access the host has at most gone on in its program.
  have access {a : Access} (ha : s.hostAccess = some a) {u : State} (hu : u = { s with prog := u.prog, draws := u.draws }) :
      ∃ t, busAccess a u = .next t := by
    obtain ⟨e, r, h⟩ := busAccess_answers (a := a) (s := u) (by rw [hu]; exact hm) (by rw [hu]; exact hr)
      (by rw [hu]; exact hacc a ha)
    exact ⟨_, h⟩
  cases hp : s.prog with
  | done => exact ⟨_, hostStatement_done hp⟩
  | write tg e k =>
    rw [hostStatement_write hp]
    exact access (by simp [State.hostAccess, hp]) rfl
  | read tg x k =>
    rw [hostStatement_read hp]
    exact onNext_answers (access (by simp [State.hostAccess, hp]) rfl)
  | wait k =>
    rw [hostStatement_wait hp]
    exact onNext_answers (access (by simp [State.hostAccess, hp]) rfl)
  | waitIrq k => exact ⟨_, hostStatement_waitIrq hp⟩
  | assign x e k => exact ⟨_, hostStatement_assign hp⟩
  | loop x a b body k =>
    rcases le_or_gt (s.value a) (s.value b) with hle | hlt
    · exact ⟨_, hostStatement_loop_enter hp hle⟩
    · exact ⟨_, hostStatement_loop_pass hp hlt⟩
  | cond c body k => exact ⟨_, hostStatement_cond hp⟩

/-- While the invariant holds the unit is already held at its reset values when `rst_n` is asserted (R190). -/
theorem State.Inv.holdReset_eq (hinv : s.Inv) : s.holdReset = s := by
  cases hr : s.rstN with
  | true => exact holdReset_of_released s hr
  | false => rw [holdReset_of_asserted s hr, ← hinv.held hr]

/-- A running unit is not in reset (R190). -/
theorem State.Inv.released (hinv : s.Inv) (hrun : s.dev.estate = .run) : s.rstN = true := by
  by_contra hr
  rw [hinv.held (Bool.eq_false_of_not_eq_true hr)] at hrun
  cases hrun

/-- The engine's turn and a clock cycle answer while the invariant holds: while idle nothing happens, and a running command
completes or has a cycle left (R166, R210). -/
theorem engine_turn_answers (hinv : s.Inv) (hm : s.mover = .engine ∨ s.mover = .clock) : ∃ t, step s = .next t := by
  cases he : s.dev.estate with
  | idle =>
    refine ⟨s.popTurn, ?_⟩
    rcases hm with hm | hm <;> simp [step, hm, hinv.holdReset_eq, engineStep_idle he]
  | run =>
    obtain ⟨i, d, hi, hd⟩ := hinv.dev.result he
    have hr := hinv.released he
    by_cases hc : s.mover = .engine ∨ s.mover = .clock ∧ s.dev.remain ≤ 1
    · exact ⟨_, step_of_completes ⟨hr, he, hc⟩ hi hd⟩
    · have hclock : s.mover = .clock := hm.resolve_left fun h => hc (.inl h)
      have hlt : 1 < s.dev.remain := not_le.1 fun h => hc (.inr ⟨hclock, h⟩)
      exact ⟨_, step_clock_before_last hr hclock he hlt hi⟩

end Answers

/-- Settles O48, by who moves. -/
theorem safeStateStepsOn : Obligations.SafeStateStepsOn := by
  rintro s ⟨hinv, hhost⟩
  cases hm : s.mover with
  | host =>
    rw [step_host (hhost hm).1 hm]
    exact onNext_answers (hostStatement_answers hm (hhost hm))
  | engine => exact engine_turn_answers hinv (.inl hm)
  | clock => exact engine_turn_answers hinv (.inr hm)
  | rst b => exact ⟨_, step_rst hm⟩

/-! ## Clocking a command to its end -/

section Clocked
variable {d e : Device} {i : Instr}

@[simp] theorem cycleOf_estate : (cycleOf i d).estate = d.estate := by rw [cycleOf_eq]; rfl

@[simp] theorem cycleOf_oplatch : (cycleOf i d).oplatch = d.oplatch := by rw [cycleOf_eq]; rfl

/-- A clock cycle before the last leaves the completed unit as it would have been: a completion reads none of the fields that the
cycle changed, and writes them again (R100, R166). -/
theorem resultOf_after_cycle (h : resultOf i d = some e) (r : Nat) :
    ∃ e', resultOf i { cycleOf i d with remain := r } = some e' ∧ e'.endCommand = e.endCommand := by
  cases i with
  | nop => cases h; exact ⟨_, rfl, rfl⟩
  | fsincos =>
    cases h
    rw [cycleOf_eq]
    exact ⟨_, rfl, rfl⟩
  | sin64rot => cases h; exact ⟨_, rfl, rfl⟩
  | romrd =>
    obtain ⟨w, hw, rfl⟩ := romrdResult_eq_some h
    exact ⟨_, romrdResult_of_romWord hw, rfl⟩

/-- The clock cycles of a running command end in the unit that its completion leaves, whatever is left of the inner work. -/
theorem run_clock_cycles (n : Nat) {s : State} {ts : List Turn} (hr : s.rstN = true) (hrun : s.dev.estate = .run)
    (hi : s.dev.oplatch = opcodeOf i) (hd : resultOf i s.dev = some d) (hn : s.dev.remain = n + 1)
    (hts : s.turns = List.replicate (n + 1) .clock ++ ts) :
    Host.Core.run Sys2Proof.core (n + 1) s = .next { s with dev := d.endCommand, turns := ts } := by
  induction n generalizing s d with
  | zero =>
    refine (run_of_step (step_of_completes ⟨hr, hrun, .inr ⟨mover_of_turns s hts, hn.le⟩⟩ hi hd)).trans ?_
    rw [hts]
    rfl
  | succ n ih =>
    obtain ⟨d', hd', hend⟩ := resultOf_after_cycle hd (s.dev.remain - 1)
    refine (run_of_step (step_clock_before_last hr (mover_of_turns s hts) hrun (by omega) hi)).trans ?_
    rw [← hend]
    exact ih (s := { s with dev := { cycleOf i s.dev with remain := s.dev.remain - 1 }, turns := s.turns.tail })
      hr (cycleOf_estate.trans hrun) (cycleOf_oplatch.trans hi) hd' (Nat.sub_eq_of_eq_add hn)
      (congrArg List.tail hts)

end Clocked

/-- Settles O59: the clock cycles and the completion end in the same unit, and with one cycle left CI is 31. -/
theorem clockedRunEqualsOneCompletion : Obligations.ClockedRunEqualsOneCompletion := by
  refine ⟨fun s ts hinv hr hrun => ?clocked, fun s hinv hrun hop hone => ?writeBack⟩
  case clocked =>
    obtain ⟨i, d, hi, hd⟩ := hinv.dev.result hrun
    obtain ⟨n, hn⟩ := Nat.exists_eq_add_one.2 (hinv.dev.cycles hrun).1
    rw [step_of_completes (s := { s with turns := .engine :: ts }) ⟨hr, hrun, .inl rfl⟩ hi hd, hn]
    exact run_clock_cycles n hr hrun hi hd hn rfl
  case writeBack =>
    obtain ⟨hsum, hvec⟩ := hinv.dev.cordic hrun hop (by rw [hone]; decide)
    have hci : s.dev.ci.val = 31 := by
      have : s.dev.remain + s.dev.ci.val = 32 := hsum
      omega
    rw [hci] at hvec
    exact ⟨hvec.trans (cordicVec_eq_rotations _).symm, hci⟩

end Sys2Proof.Machine
end

section
/-! PROOFS. Control operations (41_control_ops.md): what a register write leaves of the unit, what a read returns, the command
that a CMD write runs, and NOP's completion. -/

namespace Sys2Proof.Machine

/-! ## Register writes -/

section Writes
variable {d : Device} {v : Word}

/-- A CTRL write with SRST set is a soft reset, whatever its bit 0 (R141, R191). -/
theorem writeCtrl_of_srst (h : v.getLsbD 1 = true) : d.writeCtrl v = Device.reset := if_pos h

/-- A CTRL write with SRST clear sets IE and nothing else (R141). -/
theorem writeCtrl_of_no_srst (h : v.getLsbD 1 = false) : d.writeCtrl v = { d with ie := v.getLsbD 0 } :=
  if_neg (Bool.eq_false_iff.1 h)

end Writes

/-- Settles O32: SRST decides which of the two CTRL writes it is. -/
theorem ctrlWrite : Obligations.CtrlWrite := by
  intro s v hr _
  have hwrite : busAccess ⟨s.base + 0x04, 4, .write v⟩ s = .next { s with rdata := none, dev := s.dev.writeCtrl v } :=
    busAccess_writeReg_of_ne_cmd (r := .ctrl) hr nofun
  rw [hwrite]
  refine ⟨fun hsrst => ⟨none, ?_⟩, fun hsrst => ⟨⟨none, ?_⟩, rfl⟩⟩
  · rw [writeCtrl_of_srst hsrst]
  · rw [writeCtrl_of_no_srst hsrst]

/-- Settles O33: a flag kept when its bit is not written with 1 is what `clearW1C` leaves of it. -/
theorem statusWriteClearsTheBitsWrittenWithOne : Obligations.StatusWriteClearsTheBitsWrittenWithOne := by
  intro s v hr _
  simp only [Bool.if_false_left, Bool.decide_eq_true, Bool.and_comm (!_)]
  exact ⟨none, busAccess_writeReg_of_ne_cmd (r := .status) hr nofun⟩

/-- Settles O34: it is the write of a register other than CMD, for ARG. -/
theorem argWrite : Obligations.ArgWrite :=
  fun _ _ hr _ => ⟨none, busAccess_writeReg_of_ne_cmd (r := .arg) hr nofun⟩

/-- Settles O35: each of the four offsets is a register whose write leaves the unit as it was. -/
theorem readOnlyAndReservedWritesAreIgnored : Obligations.ReadOnlyAndReservedWritesAreIgnored := by
  intro s v off hr _ hoff
  refine ⟨none, ?_⟩
  rcases hoff with rfl | rfl | rfl | rfl
  · exact busAccess_writeReg_of_ne_cmd (r := .id) hr nofun
  · exact busAccess_writeReg_of_ne_cmd (r := .sin) hr nofun
  · exact busAccess_writeReg_of_ne_cmd (r := .cos) hr nofun
  · exact busAccess_writeReg_of_ne_cmd (r := .rsv1c) hr nofun

/-! ## Register reads -/

section Reads
variable (d : Device)

/-- CTRL reads IE zero-extended (R146). -/
theorem ctrlWord_eq_ofNat : d.ctrlWord = BitVec.ofNat 32 d.ie.toNat := by
  unfold Device.ctrlWord
  cases d.ie <;> rfl

/-- The upper part of a joined word weighs 2^n, n being the width of the lower part. -/
theorem append_toNat {m n : Nat} (a : BitVec m) (b : BitVec n) : (a ++ b).toNat = a.toNat * 2 ^ n + b.toNat := by
  rw [BitVec.toNat_append, ← Nat.shiftLeft_add_eq_or_of_lt b.isLt, Nat.shiftLeft_eq]

theorem busy_toNat : d.busy.toNat = if d.estate = .run then 1 else 0 := by
  unfold Device.busy
  cases d.estate <;> rfl

/-- STATUS as the sum of its bits' weights (R24, R146). -/
theorem statusWord_toNat : d.statusWord.toNat =
    (if d.estate = .run then 1 else 0) + 2 * d.done.toNat + 4 * d.errIllop.toNat + 8 * d.errRsvd.toNat +
      16 * d.errOvr.toNat + 32 * d.errRange.toNat + 256 * d.lastop.toNat := by
  unfold Device.statusWord
  simp only [append_toNat, BitVec.toNat_ofBool, BitVec.toNat_ofNat, busy_toNat]
  omega

end Reads

/-- Settles O36: a read answers `readReg` of its slot. CTRL and STATUS are given by numbers there, the others are as they stand. -/
theorem readsReturnTheRegister : Obligations.ReadsReturnTheRegister := by
  intro s hr
  rw [← ctrlWord_eq_ofNat, ← statusWord_toNat, BitVec.ofNat_toNat, BitVec.setWidth_eq]
  exact ⟨busAccess_readReg .id hr, busAccess_readReg .ctrl hr, busAccess_readReg .status hr, busAccess_readReg .arg hr,
    busAccess_readReg .cmd hr, busAccess_readReg .sin hr, busAccess_readReg .cos hr, busAccess_readReg .rsv1c hr⟩

/-! ## The written command, and NOP -/

/-- Settles O6: the statement is the host's CMD write of a word that decodes. -/
theorem stepRunsTheWrittenCommand : Obligations.StepRunsTheWrittenCommand := by
  intro s t e k i hr hm hp ht hd
  rw [step_host hr hm, hostStatement_write_cmd hr hp ht hd]

/-- Settles O17: NOP's result is the unit as it stands. -/
theorem nopCompletes : Obligations.NopCompletes :=
  fun _ hm hrun => exec_engine (i := .nop) hm hrun rfl

end Sys2Proof.Machine
end

section
/-! PROOFS. Exceptions (60_exceptions.md): what a CMD write does while idle and while busy, the error it records, the
completion of the latched command, the interrupt line, and what each command leaves unchanged. -/

namespace Sys2Proof.Machine

/-! ## The error of a command word -/

section WordError
variable {d : Device} {i : Instr} {f : ErrFlag}

/-- A command finds no error of its own at acceptance, ROMRD when its index is in range (R162). -/
theorem errorOf_eq_none (h : i = .romrd → romInRange d.arg = true) : errorOf i d = none := by
  cases i with
  | romrd => simp [errorOf, romrdError, h rfl]
  | nop | fsincos | sin64rot => rfl

/-- The only error that a command itself finds is ROMRD's index (R161, R162). -/
theorem errorOf_eq_some (h : errorOf i d = some f) : i = .romrd ∧ f = .range ∧ romInRange d.arg = false := by
  cases i with
  | romrd =>
    rw [errorOf, romrdError] at h
    split at h
    · cases h
    · next hrange => cases h; exact ⟨rfl, rfl, Bool.eq_false_of_not_eq_true hrange⟩
  | nop | fsincos | sin64rot => cases h

/-- The checks of R161 in their order, with the fields taken by division and remainder. -/
theorem wordError_eq (w : Word) (d : Device) : wordError w d =
    if 4 ≤ w.toNat % 16 then some .illop
    else if w.toNat / 16 ≠ 0 then some .rsvd
    else if w.toNat = 3 ∧ romInRange d.arg = false then some .range
    else none := by
  obtain ⟨hillop, hrsvd, -⟩ := decodeChecksOpcodeThenReservedBits w
  split_ifs with h1 h2 h3
  · simp [wordError, hillop h1]
  · simp [wordError, hrsvd (by omega) h2]
  · have hd : decodeWord w = .instr .romrd :=
      decodeWord_of_div_mod (by omega) (by rw [h3.1]; rfl)
    simp [wordError, hd, errorOf, romrdError, h3.2]
  · rw [wordError_eq_none]
    obtain ⟨i, hi⟩ := exists_opcodeOf (op := opField w) (by rw [opField_toNat]; omega)
    have hop : w.toNat % 16 = (opcodeOf i).toNat := by rw [← opField_toNat, hi]
    refine ⟨i, decodeWord_of_div_mod (by omega) hop, errorOf_eq_none ?_⟩
    rintro rfl
    have hw : w.toNat = 3 := by
      have : w.toNat % 16 = 3 := hop
      omega
    simpa [hw] using h3

/-- Presenting a command sets one error bit or none: ERR_OVR when it is dropped, and else the error it is presented with
(R161). -/
theorem err_present (d : Device) (op : BitVec 4) (err : Option ErrFlag) (f : ErrFlag) :
    (d.present op err).err f = (d.err f || decide ((if d.estate = .run then some .ovr else err) = some f)) := by
  obtain ⟨hrun, hp⟩ | ⟨hidle, e, rfl, hp⟩ | ⟨hidle, rfl, hp⟩ := present_cases d op err <;> rw [hp]
  · simp [err_drop, hrun, eq_comm]
  · simp [err_reject, hidle, eq_comm]
  · rw [err_congr (e := d.accept op) (d := d) rfl rfl rfl rfl]
    simp [hidle]

end WordError

/-! ## A CMD write on the bus -/

section CmdWrite
variable {s : State} {w : Word} {f : ErrFlag}

/-- A CMD write on the host's turn presents its OP field with its error (R144, R162). -/
theorem busAccess_write_cmd (hr : s.rstN = true) (hm : s.mover = .host) :
    busAccess ⟨s.base + 0x10, 4, .write w⟩ s =
      .next { s with rdata := none, dev := s.dev.present (opField w) (wordError w s.dev) } := by
  have h := busAccess_write_host (v := w) hr hm (admits_reg .cmd)
  rwa [regAt_reg] at h

/-- While idle, a word with an error is rejected with it (R164). -/
theorem busAccess_write_cmd_rejected (hr : s.rstN = true) (hm : s.mover = .host) (hidle : s.dev.estate = .idle)
    (hf : wordError w s.dev = some f) :
    busAccess ⟨s.base + 0x10, 4, .write w⟩ s =
      .next { s with rdata := none, dev := s.dev.reject (BitVec.ofNat 4 (w.toNat % 16)) f } := by
  rw [busAccess_write_cmd hr hm, hf, present_of_error hidle, opField_eq_ofNat]

end CmdWrite

/-- Settles O11: the command finds no error, so presenting it while idle accepts it. -/
theorem idleCommandIsAccepted : Obligations.IdleCommandIsAccepted := by
  intro s i hm hidle hrange
  have hlat : latencyOf (opcodeOf i) = if i = .fsincos then 33 else 1 := by cases i <;> rfl
  rw [exec_eq_runCommand, runCommand_host hm, errorOf_eq_none hrange, State.mapDev, present_of_idle hidle, ← hlat]
  rfl

/-- Settles O12: whatever error the word has, presenting it while busy drops it. -/
theorem busyCommandWriteIsDropped : Obligations.BusyCommandWriteIsDropped := by
  intro s w hr hm hrun
  refine ⟨none, ?_⟩
  rw [busAccess_write_cmd hr hm, present_of_run hrun]
  rfl

/-- Settles O13: each clause is the rejection with the error that `wordError_eq` gives the word. -/
theorem rejectedCommandRecordsItsError : Obligations.RejectedCommandRecordsItsError := by
  intro s w hr hm hidle
  refine ⟨fun hop => ⟨none, ?illop⟩, fun hop hrsvd => ⟨none, ?rsvd⟩, fun hw hrange => ⟨none, ?range⟩⟩
  case illop =>
    have hf : wordError w s.dev = some .illop := by rw [wordError_eq, if_pos hop]
    exact busAccess_write_cmd_rejected hr hm hidle hf
  case rsvd =>
    have hf : wordError w s.dev = some .rsvd := by rw [wordError_eq, if_neg (not_le.2 hop), if_pos hrsvd]
    exact busAccess_write_cmd_rejected hr hm hidle hf
  case range =>
    have hf : wordError w s.dev = some .range := by simp [wordError_eq, hw, hrange]
    rw [busAccess_write_cmd_rejected hr hm hidle hf, hw]
    rfl

/-- Settles O14: the write presents the word with the error of `wordError_eq`, and presenting sets that bit or ERR_OVR. -/
theorem oneErrorPerCommandWrite : Obligations.OneErrorPerCommandWrite := by
  intro s w hr hm
  refine ⟨_, busAccess_write_cmd hr hm, fun f => ?_⟩
  rw [← wordError_eq]
  exact err_present _ _ _ _

/-- An error bit rises only at a CMD write, and it is the bit of the first condition that holds (R160, R161). -/
theorem UnitStep.err_set {s : State} {e : Device} {f : ErrFlag} (h : UnitStep s e) (hclr : s.dev.err f = false)
    (hset : e.err f = true) :
    ∃ w, s.hostWrites .cmd w ∧ (if s.dev.estate = .run then some .ovr else wordError w s.dev) = some f := by
  have kept : e.err f ≠ s.dev.err f := by simp [hset, hclr]
  cases h with
  | drop w hw hrun => exact ⟨w, hw, by simpa [err_drop, hclr, hrun, eq_comm] using hset⟩
  | reject w g hw hidle hg => exact ⟨w, hw, by simpa [err_reject, hclr, hidle, hg, eq_comm] using hset⟩
  | reset => cases f <;> cases hset
  | writeStatus v => simp [err_clearW1C, hclr] at hset
  | complete i d hc hi hd =>
    obtain ⟨-, -, -, -, -, -, h1, h2, h3, h4⟩ := resultOf_frame hd
    exact absurd (err_congr h1 h2 h3 h4 f) kept
  | keep | writeIe | writeArg | accept | cycle => exact absurd (err_congr rfl rfl rfl rfl f) kept

/-- Settles O50: the bit that rose is the one of the first condition, which the checks of `wordError_eq` spell out. -/
theorem errorBitsAreSetOnlyByCommandWrites : Obligations.ErrorBitsAreSetOnlyByCommandWrites := by
  intro s t f h hclr hset
  obtain ⟨w, hw, hf⟩ := (unitStep_of_step h).err_set hclr hset
  refine ⟨w, hw, ?_⟩
  cases he : s.dev.estate with
  | run =>
    obtain rfl : ErrFlag.ovr = f := by simpa [he] using hf
    rfl
  | idle =>
    rw [he, if_neg nofun, wordError_eq] at hf
    split_ifs at hf with h1 h2 h3 <;> cases hf
    · exact ⟨rfl, h1⟩
    · exact ⟨rfl, not_le.1 h1, h2⟩
    · exact ⟨rfl, h3⟩

/-- Settles O15: both tables' bounds are those of the index, and the table's word is there exactly in range. -/
theorem romRangeFollowsTheTables : Obligations.RomRangeFollowsTheTables := by
  refine fun a => ⟨?numbers, ?tables⟩
  case numbers =>
    rw [romInRange, romSelOf_eq, romIdxOf_toNat]
    rcases Nat.mod_two_eq_zero_or_one (a.toNat / 256) with hsel | hsel <;> simp [hsel]
  case tables =>
    rw [← romWord_isSome, Option.isSome_iff_exists]

/-! ## The engine's turn and the clock -/

section Completion
variable {s : State} {i : Instr} {d e : Device}

/-- A completion writes SIN, COS and the hidden CORDIC fields, and ends the command; it writes nothing else (R166). -/
theorem endCommand_of_resultOf (h : resultOf i d = some e) : e.endCommand = { d with
    sin := e.sin, cos := e.cos, estate := .idle, done := true
    cx := e.cx, cy := e.cy, cz := e.cz, ci := e.ci, remain := 0 } := by
  cases i with
  | nop | fsincos | sin64rot => cases h; rfl
  | romrd => obtain ⟨w, -, rfl⟩ := romrdResult_eq_some h; rfl

/-- Only FSINCOS uses the CORDIC vector (R34). -/
theorem resultOf_vec (hi : i ≠ .fsincos) (h : resultOf i d = some e) : e.vec = d.vec ∧ e.ci = d.ci := by
  cases i with
  | fsincos => exact absurd rfl hi
  | nop | sin64rot => cases h; exact ⟨rfl, rfl⟩
  | romrd => obtain ⟨w, -, rfl⟩ := romrdResult_eq_some h; exact ⟨rfl, rfl⟩

theorem cycleOf_vec (hi : i ≠ .fsincos) (d : Device) : (cycleOf i d).vec = d.vec ∧ (cycleOf i d).ci = d.ci := by
  rw [cycleOf_of_ne_fsincos hi]
  exact ⟨rfl, rfl⟩

/-- The pseudocode's integers, cut to their words, are the results of `cordic` (R101 to R103). -/
theorem cordic_eq_asU32_refCordic (p : Word) : cordic p = (asU32 (refCordic p.toNat).1, asU32 (refCordic p.toNat).2) := by
  simp [← cordicMatchesIntegerPseudocode p, asU32]

/-- A completion does not look at the interleaving. -/
theorem finishCommand_turns (result : Device → Option Device) (s : State) (ts : List Turn) :
    finishCommand result s = onNext (fun t => { t with turns := s.turns }) (finishCommand result { s with turns := ts }) := by
  unfold finishCommand
  dsimp only
  cases s.dev.estate with
  | idle => rfl
  | run => cases result s.dev <;> rfl

end Completion

/-- Settles O21: a sound running unit has a result, and the opcode in OPLATCH says which command's result it is. -/
theorem completionStep : Obligations.CompletionStep := by
  intro s hinv hr hm hrun
  obtain ⟨i, e, hi, he⟩ := hinv.dev.result hrun
  have latched {j : Instr} (hj : s.dev.oplatch = opcodeOf j) : resultOf j s.dev = some e :=
    opcodeOf_injective (hi.symm.trans hj) ▸ he
  refine ⟨(e.sin, e.cos), e.cx, e.cy, e.cz, e.ci, 0, ?step, fun hop => ?nop, fun hop => ?fsincos, fun hop => ?sin64rot,
    fun hop => ?romrd⟩
  case step => rw [step_of_completes ⟨hr, hrun, .inl hm⟩ hi he, endCommand_of_resultOf he]
  case nop => cases latched (j := .nop) hop; rfl
  case fsincos =>
    cases latched (j := .fsincos) hop
    exact cordic_eq_asU32_refCordic s.dev.opnd
  case sin64rot => cases latched (j := .sin64rot) hop; rfl
  case romrd =>
    obtain ⟨w, hw, rfl⟩ := romrdResult_eq_some (latched (j := .romrd) hop)
    exact ⟨hw, rfl⟩

/-- Settles O23: both turns finish the command, which does not look at the turns. -/
theorem lastClockCycleCompletes : Obligations.LastClockCycleCompletes := by
  intro s i hm _ hle
  rw [exec_eq_runCommand, exec_eq_runCommand, runCommand_clock hm, cycleCommand_last hle,
    runCommand_engine (mover_of_turns _ rfl)]
  exact finishCommand_turns _ _ _

/-- Settles O7: the engine's step runs the command of OPLATCH. -/
theorem stepRunsTheLatchedCommand : Obligations.StepRunsTheLatchedCommand := by
  intro s i hr hm hrun hi
  rw [step_engine hr hm, engineStep_run hrun (instrOfOp_eq_some.2 hi)]

/-- Settles O24: the engine's step is nothing while idle. -/
theorem idleEngineDoesNothing : Obligations.IdleEngineDoesNothing := by
  intro s hr hidle hm
  rw [step_engine hr hm, engineStep_idle hidle]
  rfl

/-! ## DONE, BUSY and the interrupt line -/

/-- Settles O44: each event's DONE and IE give `irq`. -/
theorem interruptLevel : Obligations.InterruptLevel := by
  intro d v op f
  refine ⟨?level, fun hv => ?status, fun hv => ?ctrl, fun hidle => ?accepted, fun hidle => ?rejected, fun hrun => ?dropped⟩
  case level => simp [Device.irq]
  case status => simp [Device.irq, Device.writeStatus, hv]
  case ctrl =>
    cases hsrst : v.getLsbD 1 with
    | true => rw [writeCtrl_of_srst hsrst]; rfl
    | false => rw [writeCtrl_of_no_srst hsrst, hv]; rfl
  case accepted => simp [Device.irq, present_of_idle hidle]
  case rejected => simp [Device.irq, present_of_error hidle]
  case dropped => simp [Device.irq, present_of_run hrun]

/-- Bit 0 of STATUS is BUSY (R24). -/
theorem statusWord_getLsbD_zero (d : Device) : d.statusWord.getLsbD 0 = d.busy := by
  unfold Device.statusWord
  rw [BitVec.getLsbD_append, if_pos (by decide)]
  simp

/-- Settles O47: the invariant holds after the step, and it has DONE = 0 while BUSY. -/
theorem busyAndDoneNeverTogether : Obligations.BusyAndDoneNeverTogether := by
  intro s t hinv h
  have hflags : ¬(t.dev.busy = true ∧ t.dev.done = true) := by
    rintro ⟨hbusy, hdone⟩
    rw [(stepKeepsInvariant s t hinv h).dev.done (busy_iff.1 hbusy)] at hdone
    cases hdone
  refine ⟨hflags, ?_⟩
  rwa [statusWord_getLsbD_zero, statusWord_getLsbD_one]

/-! ## What a command leaves unchanged -/

/-- Presenting a command leaves the results, the CORDIC vector, IE and ARG, and of the error bits those that neither the drop nor
the command's own error sets (R162 to R164). -/
theorem present_errorOf_frame (i : Instr) (d : Device) {e : Device} (he : e = d.present (opcodeOf i) (errorOf i d)) :
    e.ie = d.ie ∧ e.arg = d.arg ∧ e.errIllop = d.errIllop ∧ e.errRsvd = d.errRsvd ∧ e.sin = d.sin ∧ e.cos = d.cos ∧
    e.vec = d.vec ∧ e.ci = d.ci ∧ (i ≠ .romrd → e.errRange = d.errRange) := by
  subst he
  obtain ⟨-, hp⟩ | ⟨-, f, hf, hp⟩ | ⟨-, -, hp⟩ := present_cases d (opcodeOf i) (errorOf i d) <;> rw [hp]
  · exact ⟨rfl, rfl, rfl, rfl, rfl, rfl, rfl, rfl, fun _ => rfl⟩
  · obtain ⟨rfl, rfl, -⟩ := errorOf_eq_some hf
    exact ⟨rfl, rfl, rfl, rfl, rfl, rfl, rfl, rfl, fun hne => absurd rfl hne⟩
  · exact ⟨rfl, rfl, rfl, rfl, rfl, rfl, rfl, rfl, fun _ => rfl⟩

/-- Settles O55, by what the command's step did: present it, nothing, complete it, or one inner cycle. -/
theorem commandFrame : Obligations.CommandFrame := by
  intro i s t h
  rw [exec_eq_runCommand] at h
  rcases runCommand_next h with ⟨hm, rfl⟩ | ⟨-, rfl⟩ | ⟨-, hm, e, he, rfl⟩ | ⟨-, hm, -, rfl⟩
  · obtain ⟨hie, harg, hillop, hrsvd, hsin, hcos, hvec, hci, hrange⟩ := present_errorOf_frame i s.dev rfl
    exact ⟨rfl, hie, harg, hillop, hrsvd, fun _ => ⟨hsin, hcos, hvec, hci⟩, fun hne => absurd hm hne,
      fun _ => ⟨hvec, hci⟩, hrange, fun _ => ⟨hsin, hcos⟩⟩
  · simp
  · have hne : s.mover ≠ .host := by rcases hm with hm | ⟨hm, -⟩ <;> simp [hm]
    have hvec (hi : i ≠ .fsincos) := resultOf_vec hi he
    have hnop (hi : i = .nop) : e.sin = s.dev.sin ∧ e.cos = s.dev.cos := by cases hi; cases he; exact ⟨rfl, rfl⟩
    rw [endCommand_of_resultOf he]
    exact ⟨rfl, rfl, rfl, rfl, rfl, fun hm => absurd hm hne, fun _ => ⟨rfl, rfl, rfl, rfl, rfl⟩, hvec, fun _ => rfl,
      hnop⟩
  · have hne : s.mover ≠ .host := by simp [hm]
    have hvec (hi : i ≠ .fsincos) := cycleOf_vec hi s.dev
    rw [State.mapDev, cycleOf_eq]
    exact ⟨rfl, rfl, rfl, rfl, rfl, fun hm => absurd hm hne, fun _ => ⟨rfl, rfl, rfl, rfl, rfl⟩, hvec, fun _ => rfl,
      fun _ => ⟨rfl, rfl⟩⟩

end Sys2Proof.Machine
end

section
/-! PROOFS. Reset and hazards (70_reset_and_hazards.md): the soft reset by CTRL, and what `rst_n` does to the unit and the host. -/

namespace Sys2Proof.Machine

/-- Settles O42: a CTRL write with SRST set leaves the unit at `Device.reset`, which holds the listed values and `irq` 0. -/
theorem softResetRestoresResetValues : Obligations.SoftResetRestoresResetValues := by
  intro s v hr hm hsrst
  obtain ⟨r, hwrite⟩ := (ctrlWrite s v hr hm).1 hsrst
  exact ⟨_, r, hwrite, rfl, rfl⟩

section Held
variable {s t : State}

/-- A step taken while `rst_n` is asserted leaves the unit at its reset values, the pin's turn that releases it included (R190):
every other effect of a step wants `rst_n` released. -/
theorem step_dev_of_held (hs : s.rstN = false) (h : step s = .next t) : t.dev = Device.reset := by
  obtain ⟨-, -, -, -, hdev⟩ := step_next h
  rcases hdev with ⟨-, he⟩ | ⟨hr, -⟩ | ⟨_, _, ⟨hr, -⟩, -⟩ | ⟨⟨hr, -⟩, -⟩ | ⟨hr, -⟩
  · exact he
  all_goals simp [hs] at hr

/-- There is no host step in reset (R190, log entry 5). -/
theorem step_host_of_held (hs : s.rstN = false) (hm : s.mover = .host) : step s = .refused .hostStepInReset := by
  have hstep : hostStep s.holdReset = .refused .hostStepInReset := by simp [hostStep, hs]
  simp only [step, hm, hstep, onNext]

end Held

/-- Settles O43: the pin's turn is `rstPin` and nothing else; in reset a step holds the unit, and the host's moves are refused. -/
theorem hardwareResetHoldsTheUnit : Obligations.HardwareResetHoldsTheUnit := by
  refine ⟨fun s hm => ?assert, fun s hm => ?release, fun _ _ => step_dev_of_held, fun _ => step_host_of_held,
    fun _ _ => busAccess_inReset⟩
  case assert => exact step_rst hm
  case release => exact step_rst hm

end Sys2Proof.Machine
end
